-- ==== Sys2Proof/Word.lean ====
section
/-! DEFINITION. The machine's two widths (00_scope.md R7, R12): bytes of memory and of the instruction
stream, and 16-bit registers, literals and addresses. Every value is unsigned. -/

namespace Sys2Proof

/-- A `u8`: one byte of memory, an opcode byte, a register index byte (R12). -/
abbrev Byte := BitVec 8

/-- A `u16`: a register, a literal, an address (R7, R12). Arithmetic on it wraps modulo 2^16. -/
abbrev Word := BitVec 16

end Sys2Proof
end

