-- ==== Sys2Proof/Config.lean ====
section
/-! DEFINITION. The parameters of one machine (00_scope.md R8, R9, R10; 10_state.md R20), as types. Their
default values stand in Decode.lean and Machine/Params.lean. -/

namespace Sys2Proof

/-- The parameter OPCODE (R10, R63): the byte of each of the seven mnemonics. The spec requires it to be
injective (`OpcodeMap.injective`). -/
structure OpcodeMap where
  movLitReg : Byte
  movRegReg : Byte
  movRegMem : Byte
  movMemReg : Byte
  addRegReg : Byte
  jmpNotEq  : Byte
  movLitR2  : Byte
deriving DecidableEq, Repr

/-- The three parameters of a machine (R20: configuration, not state). -/
structure Config where
  /-- MEM_SIZE, in bytes; the spec admits 1 to 65536 (R8). -/
  memSize : Nat
  /-- OPCODE (R10). -/
  opcode : OpcodeMap
  /-- STRICT_UNKNOWN_OPCODE (R9). -/
  strictUnknownOpcode : Bool
deriving DecidableEq, Repr

end Sys2Proof
end

