-- ==== Sys2Proof/Syntax.lean ====
section
/-! DEFINITION. The instructions, as data: one constructor for each row of spec/opcode_table.json, with its
operands in fetch order (30_encoding.md R61, R62). -/

namespace Sys2Proof

/-- The seven mnemonics (R63). An opcode byte outside the map's image names none of them (R65). -/
inductive Opcode where
  | movLitReg
  | movRegReg
  | movRegMem
  | movMemReg
  | movLitR2
  | addRegReg
  | jmpNotEq
deriving DecidableEq, Repr

/-- An instruction with its operands, each a plain unsigned value as it stands in memory (R64). -/
inductive Instr where
  /-- MOV_LIT_REG literal, regIndex (R101). -/
  | movLitReg (lit : Word) (reg : Byte)
  /-- MOV_REG_REG regFromIndex, regToIndex (R102). -/
  | movRegReg (regFrom regTo : Byte)
  /-- MOV_REG_MEM regFromIndex, address (R103). -/
  | movRegMem (regFrom : Byte) (addr : Word)
  /-- MOV_MEM_REG address, regToIndex (R104). -/
  | movMemReg (addr : Word) (regTo : Byte)
  /-- MOV_LIT_R2 literal (R105). -/
  | movLitR2 (lit : Word)
  /-- ADD_REG_REG regIndex1, regIndex2 (R120). -/
  | addRegReg (reg1 reg2 : Byte)
  /-- JMP_NOT_EQ value, address (R130). -/
  | jmpNotEq (value addr : Word)
deriving DecidableEq, Repr

/-- The mnemonic of an instruction. -/
def Instr.opcode : Instr → Opcode
  | .movLitReg _ _ => .movLitReg
  | .movRegReg _ _ => .movRegReg
  | .movRegMem _ _ => .movRegMem
  | .movMemReg _ _ => .movMemReg
  | .movLitR2 _ => .movLitR2
  | .addRegReg _ _ => .addRegReg
  | .jmpNotEq _ _ => .jmpNotEq

end Sys2Proof
end

