-- ==== Sys2Proof/Decode.lean ====
section
/-! DEFINITION. The instruction encoding (30_encoding.md): the byte order, the opcode bytes, the formats, the
decoder and the encoder. The decoder is written once, over a source of bytes: `decode` runs it on a list of
bytes, and the machine's fetch unit (Machine/Fetch.lean) runs the same definition on memory through
`instructionPointer`, one field at a time, which is the interleaving R67 asks for. -/

namespace Sys2Proof

/-! ### Byte order (20_memory.md R47: big-endian, log entry 3) -/

/-- The 16-bit value of two bytes, the first at the lower address (R43: `M[a] ++ M[a+1]`). -/
def joinWord (first second : Byte) : Word := first ++ second

/-- `w[15:8]`, the byte at the lower address (R44). -/
def firstByte (w : Word) : Byte := w.extractLsb' 8 8

/-- `w[7:0]`, the byte at the higher address (R44). -/
def secondByte (w : Word) : Byte := w.extractLsb' 0 8

/-! ### Opcode bytes (R63) -/

/-- The default instance of OPCODE (the table of R63; log entry 4). -/
def defaultOpcodeMap : OpcodeMap where
  movLitReg := 0x10
  movRegReg := 0x11
  movRegMem := 0x12
  movMemReg := 0x13
  addRegReg := 0x14
  jmpNotEq  := 0x15
  movLitR2  := 0x16

/-- `OPCODE(mnemonic)` (R63). -/
def opcodeByte (oc : OpcodeMap) : Opcode → Byte
  | .movLitReg => oc.movLitReg
  | .movRegReg => oc.movRegReg
  | .movRegMem => oc.movRegMem
  | .movMemReg => oc.movMemReg
  | .movLitR2 => oc.movLitR2
  | .addRegReg => oc.addRegReg
  | .jmpNotEq => oc.jmpNotEq

/-- The mnemonic whose byte this is, `none` for an unassigned byte (R65, R85). At most one matches when the
map is injective (for one that is not, see log entry 15). -/
def opcodeOf (oc : OpcodeMap) (b : Byte) : Option Opcode :=
  if b = oc.movLitReg then some .movLitReg
  else if b = oc.movRegReg then some .movRegReg
  else if b = oc.movRegMem then some .movRegMem
  else if b = oc.movMemReg then some .movMemReg
  else if b = oc.movLitR2 then some .movLitR2
  else if b = oc.addRegReg then some .addRegReg
  else if b = oc.jmpNotEq then some .jmpNotEq
  else none

/-! ### Formats (R61, R62, R68) -/

/-- The widths in bytes of the operand fields, in fetch order (R61, R62). -/
def operandWidths : Opcode → List Nat
  | .movLitReg => [2, 1]
  | .movRegReg => [1, 1]
  | .movRegMem => [1, 2]
  | .movMemReg => [2, 1]
  | .movLitR2 => [2]
  | .addRegReg => [1, 1]
  | .jmpNotEq => [2, 2]

/-- The length in bytes of an instruction, fixed by its opcode alone (the table of R68). -/
def instrLength : Opcode → Nat
  | .movLitReg => 4
  | .movRegReg => 3
  | .movRegMem => 4
  | .movMemReg => 4
  | .movLitR2 => 3
  | .addRegReg => 3
  | .jmpNotEq => 5

/-! ### The decoder -/

/-- What an opcode byte and its operand bytes are: an instruction, or a one-byte instruction of format OP
with no operand (R65). -/
inductive Decoded where
  | instr (i : Instr)
  | unassigned (op : Byte)
deriving DecidableEq, Repr

/-- The operand fetches of each instruction, in fetch order (R61; the first lines of the pseudocode of R101
to R105, R120, R130). `f8` and `f16` take the next byte and the next 16-bit value from the source. -/
def decodeOperands {m : Type → Type} [Monad m] (f8 : m Byte) (f16 : m Word) : Opcode → m Instr
  | .movLitReg => do
    let lit ← f16
    let b ← f8
    pure (.movLitReg lit b)
  | .movRegReg => do
    let bf ← f8
    let bt ← f8
    pure (.movRegReg bf bt)
  | .movRegMem => do
    let bf ← f8
    let a ← f16
    pure (.movRegMem bf a)
  | .movMemReg => do
    let a ← f16
    let bt ← f8
    pure (.movMemReg a bt)
  | .movLitR2 => do
    let lit ← f16
    pure (.movLitR2 lit)
  | .addRegReg => do
    let k1 ← f8
    let k2 ← f8
    pure (.addRegReg k1 k2)
  | .jmpNotEq => do
    let v ← f16
    let a ← f16
    pure (.jmpNotEq v a)

/-- One instruction from a source of bytes: the opcode, then its operands (R60, R67, R85). -/
def decodeWith {m : Type → Type} [Monad m] (oc : OpcodeMap) (f8 : m Byte) (f16 : m Word) : m Decoded := do
  let op ← f8
  match opcodeOf oc op with
  | some k => do
    let i ← decodeOperands f8 f16 k
    pure (.instr i)
  | none => pure (.unassigned op)

/-- Why a list of bytes is no instruction of the table. -/
inductive DecodeError where
  /-- The list ends inside a field. -/
  | truncated
  /-- The opcode byte is none of the seven: format OP, a no-op or, in strict mode, UnknownOpcode (R65). -/
  | unassignedOpcode (op : Byte)
deriving DecidableEq, Repr

/-- Reading from a list of bytes. -/
abbrev ByteParser := EStateM DecodeError (List Byte)

/-- The next byte of a list. -/
def next8 : ByteParser Byte
  | b :: rest => .ok b rest
  | [] => .error .truncated []

/-- The next 16-bit value of a list, in the byte order of R47. -/
def next16 : ByteParser Word
  | b0 :: b1 :: rest => .ok (joinWord b0 b1) rest
  | bytes => .error .truncated bytes

/-- The decoder on a list of bytes: the instruction and the bytes after it, or a rejection by name. Total on
any bytes (R66). -/
def decode (oc : OpcodeMap) (bytes : List Byte) : Except DecodeError (Instr × List Byte) :=
  match decodeWith oc next8 next16 bytes with
  | .ok (.instr i) rest => .ok (i, rest)
  | .ok (.unassigned op) _ => .error (.unassignedOpcode op)
  | .error e _ => .error e

/-! ### The encoder (R62) -/

/-- The two bytes of a 16-bit field, in the byte order of R47. -/
def wordBytes (w : Word) : List Byte := [firstByte w, secondByte w]

/-- The bytes of an instruction from its start address on, written from the formats of R62. -/
def encode (oc : OpcodeMap) : Instr → List Byte
  | .movLitReg lit b => [oc.movLitReg] ++ wordBytes lit ++ [b]
  | .movRegReg bf bt => [oc.movRegReg, bf, bt]
  | .movRegMem bf a => [oc.movRegMem, bf] ++ wordBytes a
  | .movMemReg a bt => [oc.movMemReg] ++ wordBytes a ++ [bt]
  | .movLitR2 lit => [oc.movLitR2] ++ wordBytes lit
  | .addRegReg k1 k2 => [oc.addRegReg, k1, k2]
  | .jmpNotEq v a => [oc.jmpNotEq] ++ wordBytes v ++ wordBytes a

/-- The word `W` of R62: the bytes as one number, the byte at the start address in the top eight bits. -/
def instrWord (bytes : List Byte) : Nat := bytes.foldl (fun w b => w * 256 + b.toNat) 0

/-! ### Pseudo-instructions (R70) -/

/-- `JMP addr` is `MOV_LIT_REG addr, ip`: the index byte 0x00 names slot 0 (R70). -/
def pseudoJmp (addr : Word) : Instr := .movLitReg addr 0x00

/-- `NOP` is the byte 0x00, a no-op while it is unassigned and strict mode is off (R70). -/
def pseudoNop : List Byte := [0x00]

/-! ### The host's view of the table's words -/

/-- The longest instruction, in bytes (R68). -/
def maxInstrLength : Nat := 5

/-- The bytes of a table word of `nbits` bits: bit 0 of `w` is bit 0 of the byte at the start address, and
the bits above `nbits` are zero, up to the longest instruction. -/
def tableBytes (nbits w : Nat) : List Byte :=
  (List.range maxInstrLength).map fun k => BitVec.ofNat 8 ((w % 2 ^ nbits) >>> (8 * k))

/-- The instruction the decoder reads from a word numbered as spec/opcode_table.json numbers its bits, under
the default OPCODE. -/
def decodeTableWord (nbits w : Nat) : Option Instr :=
  match decode defaultOpcodeMap (tableBytes nbits w) with
  | .ok (i, _) => some i
  | .error _ => none

end Sys2Proof
end

