-- ==== Sys2Proof/Machine/Params.lean ====
section
/-! DEFINITION. The default parameters (00_scope.md R8 to R10) and the values registers and memory hold after
construction (10_state.md R34; log entries 4 and 5). -/

namespace Sys2Proof.Machine

/-- MEM_SIZE = 65536 (R8), OPCODE the default instance of R63, strict mode off (R9). -/
def defaultConfig : Config where
  memSize := 65536
  opcode := defaultOpcodeMap
  strictUnknownOpcode := false

/-- What every register holds after construction (R34). -/
def initialRegister : Word := 0x0000

/-- What a byte of memory that nothing has written holds (R34, R53). -/
def unlistedByte : Byte := 0x00

end Sys2Proof.Machine
end

