-- ==== Sys2Proof/Machine/State.lean ====
section
/-! DEFINITION. The state of the machine (10_state.md R20), plain data: the register file, the memory, the fault
latch, and the parameters the machine was constructed with. Also the faults (60_exceptions.md R160), the one
refusal, and the state after construction (R34). -/

namespace Sys2Proof.Machine

/-- A register slot, 0 to 9 (R21). -/
abbrev Slot := Fin 10

/-- The memory, in one canonical form (`Memory.wf`): addresses strictly rising, and no byte equal to
`unlistedByte`, which is what an address not listed holds. -/
abbrev Memory := List Host.Cell

/-- What an access was for: the `kind` of an OutOfBounds fault (R42 to R45, R160). -/
inductive AccessKind where
  | fetch
  | read
  | write
deriving DecidableEq, Repr

/-- What an OutOfBounds fault records (R160; log entry 10). -/
inductive OutOfBounds where
  /-- `space` = MEM: the first byte address and the width of the access. -/
  | mem (addr width : Nat) (kind : AccessKind)
  /-- `space` = REG: the index k, the offset 2k in the register buffer, and the width 2. -/
  | reg (index offset width : Nat) (kind : AccessKind)
deriving DecidableEq, Repr

/-- The three faults (R15, R160). A fault raised inside `step()` is latched in `State.fault` by a step that
answers a next state; a further step answers the latched fault (log entry 2). -/
inductive Fault where
  /-- Raised by an access outside memory or outside the register buffer: a fetch, the data access of
  MOV_REG_MEM or MOV_MEM_REG, a register read of ADD_REG_REG (R161), or a host operation on memory (R142,
  R146, R148). Safe: the spec raises it in the same cases. -/
  | outOfBounds (info : OutOfBounds)
  /-- Raised by the host's `getRegister` and `setRegister` on a name outside the ten (R163); no instruction
  raises it and it is never latched. Safe. -/
  | unknownRegister (name : String)
  /-- Raised in strict mode by an opcode byte that OPCODE does not assign; records the byte and its address
  (R86, R164). Safe. -/
  | unknownOpcode (opcode : Byte) (addr : Word)
deriving DecidableEq, Repr

/-- Why there is no meaning for an instruction. -/
inductive Refusal where
  /-- Answered by an arm of `exec` whose instruction has no meaning yet; no arm of this model does. Safe. -/
  | notModelled (mnemonic : String)
deriving DecidableEq, Repr

/-- The state `S = (x, M, fault)` of R20, with the machine's parameters beside it (log entry 1). -/
structure State where
  /-- MEM_SIZE, OPCODE and STRICT_UNKNOWN_OPCODE: constant, no step and no host operation changes it. -/
  cfg : Config
  /-- `x`, the register file: slot 0 instructionPointer, slot 1 accumulator, slots 2 to 9 register1 to
  register8 (R21). -/
  regs : Vector Word 10
  /-- `M` (R31). -/
  mem : Memory
  /-- The fault latch (R33). -/
  fault : Option Fault
deriving DecidableEq, Repr

/-- The state after construction with these parameters (R34, R190). -/
def State.constructed (c : Config) : State where
  cfg := c
  regs := Vector.replicate 10 initialRegister
  mem := []
  fault := none

/-- The state right after reset, which is construction with the default parameters (R190). -/
def State.reset : State := State.constructed defaultConfig

end Sys2Proof.Machine
end

