-- ==== Sys2Proof/Machine/Ops.lean ====
section
/-! DEFINITION. The named operations every meaning is written over: registers (10_state.md), memory and its port
(20_memory.md), and raising and latching a fault (00_scope.md R15, 60_exceptions.md R167). -/

namespace Sys2Proof.Machine

/-! ### Registers (R13, R21) -/

/-- Slot 0, instructionPointer (R24). -/
abbrev ipSlot : Slot := 0

/-- Slot 1, accumulator (R25). -/
abbrev accSlot : Slot := 1

/-- Slot 3, register2, the fixed destination of MOV_LIT_R2 (R26). -/
abbrev r2Slot : Slot := 3

/-- `x[i]` (R13). No slot is hardwired (R23). -/
def State.reg (s : State) (i : Slot) : Word := s.regs.get i

/-- `x[i] <- v` (R13). No slot is read-only (R23). -/
def State.setReg (s : State) (i : Slot) (v : Word) : State :=
  { s with regs := s.regs.set i.val v i.isLt }

/-- `pc`, another name for `x[0]` (R13). -/
abbrev State.ip (s : State) : Word := s.reg ipSlot

/-- `pc <- t` (R13). -/
abbrev State.setIp (s : State) (t : Word) : State := s.setReg ipSlot t

/-- The register file as its byte buffer: slot i at offsets 2i and 2i+1 (R22). Nothing in the machine reads
it this way. -/
def State.registerBuffer (s : State) : List Byte := s.regs.toList.flatMap wordBytes

/-! ### Memory as data -/

/-- The byte at an address. -/
def Memory.byteAt : Memory → Nat → Byte
  | [], _ => unlistedByte
  | (k, b) :: rest, a => if k = a then b else Memory.byteAt rest a

/-- The memory with one byte changed, in canonical form again. -/
def Memory.setByte : Memory → Nat → Byte → Memory
  | [], a, v => if v = unlistedByte then [] else [(a, v)]
  | (k, b) :: rest, a, v =>
    if a < k then (if v = unlistedByte then (k, b) :: rest else (a, v) :: (k, b) :: rest)
    else if a = k then (if v = unlistedByte then rest else (a, v) :: rest)
    else (k, b) :: Memory.setByte rest a v

/-- The memory with consecutive bytes changed, the first at `a`. -/
def Memory.setBytes (m : Memory) (a : Nat) : List Byte → Memory
  | [] => m
  | b :: rest => Memory.setBytes (m.setByte a b) (a + 1) rest

/-- The canonical form: addresses strictly rising, and no byte an unlisted address would hold. -/
def Memory.wf : Memory → Bool
  | [] => true
  | (k, b) :: rest => decide (b ≠ unlistedByte) && rest.all (fun c => decide (k < c.1)) && Memory.wf rest

/-- Every listed address is one of `0 .. size-1` (R40). -/
def Memory.within (m : Memory) (size : Nat) : Bool := m.all fun c => decide (c.1 < size)

/-- `M[a]` (R31). -/
def State.byteAt (s : State) (a : Nat) : Byte := s.mem.byteAt a

/-- `M[a] ++ M[a+1]` (R43). -/
def State.wordAt (s : State) (a : Nat) : Word := joinWord (s.byteAt a) (s.byteAt (a + 1))

/-- `M[a] <- w[15:8]`, then `M[a+1] <- w[7:0]` (R44). -/
def State.storeWord (s : State) (a : Nat) (w : Word) : State :=
  { s with mem := (s.mem.setByte a (firstByte w)).setByte (a + 1) (secondByte w) }

/-- `M[a] <- v` (R45). -/
def State.storeByte (s : State) (a : Nat) (v : Byte) : State :=
  { s with mem := s.mem.setByte a v }

/-- An access of `n` bytes at `a` is in bounds: `a + n <= MEM_SIZE`, a sum that does not wrap (R41). -/
abbrev State.inBounds (s : State) (a n : Nat) : Prop := a + n ≤ s.cfg.memSize

/-! ### Sub-operations (R15, R16)

A sub-operation takes a state and answers a value and the state after it, or a fault and the state as it was
left, in which every effect already performed stays (R15). -/

/-- A sub-operation, or a sequence of them in the order of the pseudocode (R16). -/
abbrev Act := EStateM Fault State

/-- `raise F(info)` (R15): nothing more of the sequence is performed. -/
def raise {α : Type} (f : Fault) : Act α := fun s => .error f s

/-- TAKING A FAULT (R15, R33, R167): the fault is latched, and nothing else changes. No register saves the
instruction pointer, no mode changes and control goes nowhere; there is no return from it (R168). -/
def latchFault (f : Fault) (s : State) : State := { s with fault := some f }

/-- How a sequence of sub-operations ends the step: a fault it raised is latched in the state it left (R15).
Both ends are next states (log entry 2). -/
def runAct (m : Act Unit) (s : State) : Host.Outcome State Fault Refusal :=
  match m s with
  | .ok _ t => .next t
  | .error f t => .next (latchFault f t)

/-- The numeric code of a fault (R160; 0 stands for none). -/
def faultCode : Option Fault → Nat
  | none => 0
  | some (.outOfBounds _) => 1
  | some (.unknownRegister _) => 2
  | some (.unknownOpcode _ _) => 3

/-- Reading a register slot. It cannot fail. -/
def readReg (i : Slot) : Act Word := fun s => .ok (s.reg i) s

/-- Writing a register slot. It cannot fail. -/
def writeReg (i : Slot) (v : Word) : Act Unit := fun s => .ok () (s.setReg i v)

/-- The OutOfBounds fault of a memory access (R42 to R45). -/
def memFault (a width : Nat) (k : AccessKind) : Fault := .outOfBounds (.mem a width k)

/-! ### The memory port (R42 to R45) -/

/-- `MemRead(a, 1)` (R42). -/
def memRead8 (k : AccessKind) (a : Nat) : Act Byte := fun s =>
  if a + 1 > s.cfg.memSize then .error (memFault a 1 k) s else .ok (s.byteAt a) s

/-- `MemRead(a, 2)` (R43): the bound check comes before any byte is read. -/
def memRead16 (k : AccessKind) (a : Nat) : Act Word := fun s =>
  if a + 2 > s.cfg.memSize then .error (memFault a 2 k) s else .ok (s.wordAt a) s

/-- `MemWrite(a, 2, v)` (R44): the bound check comes before either byte is written. -/
def memWrite16 (a : Nat) (v : Word) : Act Unit := fun s =>
  if a + 2 > s.cfg.memSize then .error (memFault a 2 .write) s else .ok () (s.storeWord a v)

/-- `MemWrite(a, 1, v)` (R45), which only the host uses. -/
def memWrite8 (a : Nat) (v : Byte) : Act Unit := fun s =>
  if a + 1 > s.cfg.memSize then .error (memFault a 1 .write) s else .ok () (s.storeByte a v)

end Sys2Proof.Machine
end

