-- ==== Sys2Proof/Machine/Flags.lean ====
section
/-! DEFINITION. The machine has no flags and no condition codes (10_state.md R28), so no flag is computed. What
stands here is the one sum and the one condition the instructions compute. -/

namespace Sys2Proof.Machine

/-- `(v1 + v2) mod 2^16`: unsigned, and it wraps silently (R120, R121). -/
def sum16 (v1 v2 : Word) : Word := v1 + v2

/-- The condition of JMP_NOT_EQ, on all 16 bits (R130). -/
def notEqual (v acc : Word) : Bool := decide (v ≠ acc)

end Sys2Proof.Machine
end

