-- ==== Sys2Proof/Machine/Operands.lean ====
section
/-! DEFINITION. The operand forms: a register index byte of a MOV opcode (41_data_movement.md R100), a register
index byte of ADD_REG_REG (42_arithmetic.md R120), and a 16-bit absolute address (30_encoding.md R64). -/

namespace Sys2Proof.Machine

/-- `slot(b) = b mod 10`, for the four MOV opcodes that take an index byte (R100). -/
def slot (b : Byte) : Slot := ⟨b.toNat % 10, Nat.mod_lt _ (by decide)⟩

/-- The OutOfBounds fault of an index that names no slot: offset 2k and width 2 in the register buffer
(R120). -/
def regFault (k : Byte) : Fault := .outOfBounds (.reg k.toNat (2 * k.toNat) 2 .read)

/-- `RegReadChecked(k)` (R120): the index is not reduced. -/
def regReadChecked (k : Byte) : Act Word :=
  if h : k.toNat < 10 then readReg ⟨k.toNat, h⟩ else raise (regFault k)

/-- An address operand as the address of a byte: used as it is (R64). -/
def byteAddress (a : Word) : Nat := a.toNat

end Sys2Proof.Machine
end

