-- ==== Sys2Proof/Machine/Arithmetic.lean ====
section
/-! DEFINITION. ADD_REG_REG (42_arithmetic.md R120), from the state its operand fetches leave. -/

namespace Sys2Proof.Machine

/-- ADD_REG_REG: both indices are read checked, the first one first, and the sum goes to the accumulator
(R120). -/
def execAddRegReg (k1 k2 : Byte) (s : State) : Host.Outcome State Fault Refusal :=
  runAct (do
    let v1 ← regReadChecked k1
    let v2 ← regReadChecked k2
    writeReg accSlot (sum16 v1 v2)) s

end Sys2Proof.Machine
end

