-- ==== Sys2Proof/Machine/ControlTransfer.lean ====
section
/-! DEFINITION. JMP_NOT_EQ (43_control_transfer.md R130), from the state its operand fetches leave. -/

namespace Sys2Proof.Machine

/-- JMP_NOT_EQ: `if v != x[1] then pc <- a` (R130). The target is used as it is and checked by nothing
(R131). -/
def execJmpNotEq (v a : Word) (s : State) : Host.Outcome State Fault Refusal :=
  runAct (do
    let acc ← readReg accSlot
    if notEqual v acc then writeReg ipSlot a else pure ()) s

end Sys2Proof.Machine
end

