-- ==== Sys2Proof/Machine/DataMovement.lean ====
section
/-! DEFINITION. The MOV family (41_data_movement.md R101 to R105). Each meaning is what its rule does after its
operand fetches: the register reads, the memory access and the result write (40_fetch_and_step.md R87). So it
starts in the state the fetches leave, where slot 0 holds the fall-through address (log entry 7). -/

namespace Sys2Proof.Machine

/-- MOV_LIT_REG: `x[slot(b)] <- lit` (R101). -/
def execMovLitReg (lit : Word) (b : Byte) (s : State) : Host.Outcome State Fault Refusal :=
  runAct (writeReg (slot b) lit) s

/-- MOV_REG_REG: `v <- x[slot(bf)]`, then `x[slot(bt)] <- v` (R102). -/
def execMovRegReg (bf bt : Byte) (s : State) : Host.Outcome State Fault Refusal :=
  runAct (do
    let v ← readReg (slot bf)
    writeReg (slot bt) v) s

/-- MOV_REG_MEM: `v <- x[slot(bf)]`, then `MemWrite(a, 2, v)` (R103). -/
def execMovRegMem (bf : Byte) (a : Word) (s : State) : Host.Outcome State Fault Refusal :=
  runAct (do
    let v ← readReg (slot bf)
    memWrite16 (byteAddress a) v) s

/-- MOV_MEM_REG: `v <- MemRead(a, 2)`, then `x[slot(bt)] <- v` (R104). -/
def execMovMemReg (a : Word) (bt : Byte) (s : State) : Host.Outcome State Fault Refusal :=
  runAct (do
    let v ← memRead16 .read (byteAddress a)
    writeReg (slot bt) v) s

/-- MOV_LIT_R2: `x[3] <- lit` (R105). -/
def execMovLitR2 (lit : Word) (s : State) : Host.Outcome State Fault Refusal :=
  runAct (writeReg r2Slot lit) s

end Sys2Proof.Machine
end

