-- ==== Sys2Proof/Machine/Dispatch.lean ====
section
/-! DEFINITION. The opcode_dispatcher's seven operations (40_fetch_and_step.md R85): one arm for each
instruction. -/

namespace Sys2Proof.Machine

/-- What an instruction does once its operands are fetched. -/
def exec (i : Instr) (s : State) : Host.Outcome State Fault Refusal :=
  match i with
  | .movLitReg lit b => Sys2Proof.Machine.execMovLitReg lit b s
  | .movRegReg bf bt => Sys2Proof.Machine.execMovRegReg bf bt s
  | .movRegMem bf a => Sys2Proof.Machine.execMovRegMem bf a s
  | .movMemReg a bt => Sys2Proof.Machine.execMovMemReg a bt s
  | .movLitR2 lit => Sys2Proof.Machine.execMovLitR2 lit s
  | .addRegReg k1 k2 => Sys2Proof.Machine.execAddRegReg k1 k2 s
  | .jmpNotEq v a => Sys2Proof.Machine.execJmpNotEq v a s

end Sys2Proof.Machine
end

