-- ==== Sys2Proof/Machine/Fetch.lean ====
section
/-! DEFINITION. The program_counter_controller (40_fetch_and_step.md R80, R81): fetching bytes through
instructionPointer, and fetching one instruction with the decoder of Decode.lean. -/

namespace Sys2Proof.Machine

/-- `Fetch8()` (R80): the read comes before the increment, so a fetch that faults leaves IP alone. -/
def fetch8 : Act Byte := do
  let a ← readReg ipSlot
  let b ← memRead8 .fetch a.toNat
  writeReg ipSlot (a + 1)
  pure b

/-- `Fetch16()` (R81). -/
def fetch16 : Act Word := do
  let a ← readReg ipSlot
  let w ← memRead16 .fetch a.toNat
  writeReg ipSlot (a + 2)
  pure w

/-- Fetching the opcode and then each operand of its instruction, each fetch advancing IP (R67, R84, R87). -/
def fetchInstr : Act Decoded := fun s => decodeWith s.cfg.opcode fetch8 fetch16 s

/-! ### Where the fields of the instruction at IP lie -/

/-- The address of byte k of the instruction at IP: `(s+k) mod 2^16` (41_data_movement.md, its preamble). -/
def State.codeAddr (s : State) (k : Nat) : Nat := (s.ip + BitVec.ofNat 16 k).toNat

/-- Byte k of the instruction at IP. -/
def State.codeByte (s : State) (k : Nat) : Byte := s.byteAt (s.codeAddr k)

/-- The 16-bit field at byte k of the instruction at IP (R81). -/
def State.codeWord (s : State) (k : Nat) : Word := s.wordAt (s.codeAddr k)

/-- The field of `n` bytes at byte k of the instruction at IP is in bounds (R41). -/
abbrev State.fieldFits (s : State) (k n : Nat) : Prop := s.inBounds (s.codeAddr k) n

/-- The next `n` bytes from IP on, running past 0xFFFF into 0x0000 (R83). -/
def State.codeBytes (s : State) (n : Nat) : List Byte := (List.range n).map s.codeByte

/-- The instruction at IP, its operand fields read where they lie. -/
def State.codeInstr (s : State) : Opcode → Instr
  | .movLitReg => .movLitReg (s.codeWord 1) (s.codeByte 3)
  | .movRegReg => .movRegReg (s.codeByte 1) (s.codeByte 2)
  | .movRegMem => .movRegMem (s.codeByte 1) (s.codeWord 2)
  | .movMemReg => .movMemReg (s.codeWord 1) (s.codeByte 3)
  | .movLitR2 => .movLitR2 (s.codeWord 1)
  | .addRegReg => .addRegReg (s.codeByte 1) (s.codeByte 2)
  | .jmpNotEq => .jmpNotEq (s.codeWord 1) (s.codeWord 3)

/-- Fields of these widths, one after another from byte k on, are all in bounds. -/
def State.fieldsFit (s : State) (k : Nat) : List Nat → Bool
  | [] => true
  | n :: rest => decide (s.fieldFits k n) && State.fieldsFit s (k + n) rest

/-- The state once k bytes of the instruction at IP have been fetched: only IP has moved (R82, R83). -/
def State.advanced (s : State) (k : Nat) : State := s.setIp (s.ip + BitVec.ofNat 16 k)

end Sys2Proof.Machine
end

