-- ==== Sys2Proof/Machine/Engine.lean ====
section
/-! DEFINITION. The step sequencer (40_fetch_and_step.md R84) and the unassigned opcode (R86). -/

namespace Sys2Proof.Machine

/-- `UnknownOp(op)` (R86), after the opcode fetch has advanced IP: nothing, or UnknownOpcode in strict
mode. -/
def unknownOp (op : Byte) : Act Unit := fun s =>
  if s.cfg.strictUnknownOpcode then .error (.unknownOpcode op (s.ip - 1)) s else .ok () s

/-- `step()` (R84). A latched fault stops the engine: the step changes nothing and answers the fault again
(R84, R143; log entry 2). Otherwise one instruction is fetched and performed; a fault raised on the way is
latched in the state the step leaves. -/
def runStep (s : State) : Host.Outcome State Fault Refusal :=
  match s.fault with
  | some f => .fault f
  | none =>
    match fetchInstr s with
    | .ok (.instr i) t => exec i t
    | .ok (.unassigned op) t => runAct (unknownOp op) t
    | .error f t => .next (latchFault f t)

/-- Bytes written from IP on, each one at an address that exists, running past 0xFFFF into 0x0000. -/
def placeCode (s : State) (k : Nat) : List Byte → Memory → Memory
  | [], m => m
  | b :: rest, m =>
    placeCode s (k + 1) rest
      (if s.codeAddr k < s.cfg.memSize then m.setByte (s.codeAddr k) b else m)

end Sys2Proof.Machine
end

