-- ==== Sys2Proof/Machine/Step.lean ====
section
/-! DEFINITION. One step of the machine, and a state with one instruction placed where the next step fetches
(log entry 12). -/

namespace Sys2Proof.Machine

/-- One call of `step()` (R84). -/
def step (s : State) : Host.Outcome State Fault Refusal := runStep s

/-- `s` with the instruction of a table word, and zeros up to the longest instruction, at IP. It stands for
the host's `load` (R142, R191). -/
def State.withFetchWord (s : State) (nbits w : Nat) : State :=
  { s with mem := placeCode s 0 (tableBytes nbits w) s.mem }

end Sys2Proof.Machine
end

