-- ==== Sys2Proof/WellFormed.lean ====
section
/-! DEFINITION. What a machine's parameters must meet (00_scope.md R8, R10; 30_encoding.md R63;
44_host_interface.md R141), and what an instruction must meet: nothing (30_encoding.md R64, R66). -/

namespace Sys2Proof

/-- The seven opcode bytes of a map. -/
def OpcodeMap.bytes (oc : OpcodeMap) : List Byte :=
  [oc.movLitReg, oc.movRegReg, oc.movRegMem, oc.movMemReg, oc.addRegReg, oc.jmpNotEq, oc.movLitR2]

/-- OPCODE is injective: "the seven bytes are distinct" (R63). -/
def OpcodeMap.injective (oc : OpcodeMap) : Bool := decide oc.bytes.Nodup

/-- `1 <= MEM_SIZE <= 65536` (R8, R141). -/
def Config.memSizeOk (c : Config) : Bool := decide (1 ≤ c.memSize) && decide (c.memSize ≤ 65536)

/-- The parameters the spec gives a machine for; `new` refuses every other (R141). -/
def Config.wf (c : Config) : Bool := c.memSizeOk && c.opcode.injective

/-- Every operand value of every instruction is legal: "every operand value is accepted by the decoder"
(R66). The widths of the fields are in their types, so there is no check here that could refuse one. An
ADD_REG_REG index of 10 or more is well formed too: it faults when it executes (R64, R120). -/
def Instr.wf : Instr → Bool
  | .movLitReg _ _ => true
  | .movRegReg _ _ => true
  | .movRegMem _ _ => true
  | .movMemReg _ _ => true
  | .movLitR2 _ => true
  | .addRegReg _ _ => true
  | .jmpNotEq _ _ => true

end Sys2Proof
end

