-- ==== Sys2Proof/Machine/HostPort.lean ====
section
/-! DEFINITION. The host port (44_host_interface.md R140 to R151): the operations the host may call between
steps, and a run as a list of them. An operation that fails changes no state and does not latch (R149). -/

namespace Sys2Proof.Machine

/-! ### Construction (R141, R190) -/

/-- A machine with these parameters; none where the spec gives none (R8, R63, R141; log entry 15). -/
def construct (c : Config) : Option State := if c.wf then some (State.constructed c) else none

/-- `new(memorySize)` (R141), with the other parameters at their defaults. -/
def new (memorySize : Nat) : Option State := construct { defaultConfig with memSize := memorySize }

/-! ### Registers by name (R144, R145) -/

/-- The ten names, in slot order (R21). -/
def registerNames : List String :=
  ["instructionPointer", "accumulator", "register1", "register2", "register3", "register4", "register5",
   "register6", "register7", "register8"]

/-- The slot of a name, spelt exactly (R144; log entry 13). -/
def slotOfName (name : String) : Option Slot :=
  if name = "instructionPointer" then some 0
  else if name = "accumulator" then some 1
  else if name = "register1" then some 2
  else if name = "register2" then some 3
  else if name = "register3" then some 4
  else if name = "register4" then some 5
  else if name = "register5" then some 6
  else if name = "register6" then some 7
  else if name = "register7" then some 8
  else if name = "register8" then some 9
  else none

/-- `getRegister(name)` (R144). -/
def getRegister (name : String) : Act Word :=
  match slotOfName name with
  | some i => readReg i
  | none => raise (.unknownRegister name)

/-- `setRegister(name, value)` (R145): an integer of any size, reduced modulo 2^16. -/
def setRegister (name : String) (value : Int) : Act Unit :=
  match slotOfName name with
  | some i => writeReg i (BitVec.ofInt 16 value)
  | none => raise (.unknownRegister name)

/-! ### Memory (R142, R146) -/

/-- `readMemory8(a)` (R146). -/
def readMemory8 (a : Nat) : Act Byte := memRead8 .read a

/-- `readMemory16(a)` (R146). -/
def readMemory16 (a : Nat) : Act Word := memRead16 .read a

/-- `writeU8(a, v)` (R45, R146): reduced modulo 2^8. -/
def writeU8 (a : Nat) (v : Int) : Act Unit := memWrite8 a (BitVec.ofInt 8 v)

/-- `writeU16(a, v)` (R44, R146): reduced modulo 2^16. -/
def writeU16 (a : Nat) (v : Int) : Act Unit := memWrite16 a (BitVec.ofInt 16 v)

/-- `load(bytes, atAddress)` (R142): one check, then every byte or none. -/
def load (bytes : List Byte) (addr : Nat) : Act Unit := fun s =>
  if addr + bytes.length > s.cfg.memSize then .error (memFault addr bytes.length .write) s
  else .ok () { s with mem := s.mem.setBytes addr bytes }

/-! ### Views (R147, R148; the text they print is out of scope, R6, log entry 14) -/

/-- What `debug()` shows: the ten registers by name (R147). -/
def debugView : Act (List (String × Word)) := fun s => .ok (registerNames.zip s.regs.toList) s

/-- What `viewMemoryAt(address)` shows: the 8 bytes from `address` on, or OutOfBounds (R148). -/
def viewMemoryAt (a : Nat) : Act (List Byte) := fun s =>
  if a + 8 > s.cfg.memSize then .error (memFault a 8 .read) s
  else .ok ((List.range 8).map fun k => s.byteAt (a + k)) s

/-! ### One call of the host, and a run -/

/-- A call the host may make between steps (R140). -/
inductive HostOp where
  | step
  | load (bytes : List Byte) (addr : Nat)
  | getRegister (name : String)
  | setRegister (name : String) (value : Int)
  | readMemory8 (a : Nat)
  | readMemory16 (a : Nat)
  | writeU8 (a : Nat) (v : Int)
  | writeU16 (a : Nat) (v : Int)
  | debug
  | viewMemoryAt (a : Nat)
deriving DecidableEq, Repr

/-- What a call returns. -/
inductive HostReply where
  | ok
  | byte (b : Byte)
  | word (w : Word)
  | registers (l : List (String × Word))
  | bytes (l : List Byte)
  | error (f : Fault)
  /-- The step refused; no step of this model does. -/
  | refused (r : Refusal)
deriving DecidableEq, Repr

/-- The state and the reply of an operation; `mk` makes the reply of its value. -/
def replyOf {α : Type} (mk : α → HostReply) (m : Act α) (s : State) : State × HostReply :=
  match m s with
  | .ok a t => (t, mk a)
  | .error f t => (t, .error f)

/-- `step()` as the host sees it (R143): `ok`, or the fault raised in this step or latched before it. -/
def hostStep (s : State) : State × HostReply :=
  match step s with
  | .next t =>
    match t.fault with
    | none => (t, .ok)
    | some f => (t, .error f)
  | .fault f => (s, .error f)
  | .refused r => (s, .refused r)

/-- One call of the host. -/
def hostCall : HostOp → State → State × HostReply
  | .step => hostStep
  | .load bytes addr => replyOf (fun _ => .ok) (load bytes addr)
  | .getRegister name => replyOf .word (getRegister name)
  | .setRegister name v => replyOf (fun _ => .ok) (setRegister name v)
  | .readMemory8 a => replyOf .byte (readMemory8 a)
  | .readMemory16 a => replyOf .word (readMemory16 a)
  | .writeU8 a v => replyOf (fun _ => .ok) (writeU8 a v)
  | .writeU16 a v => replyOf (fun _ => .ok) (writeU16 a v)
  | .debug => replyOf .registers debugView
  | .viewMemoryAt a => replyOf .bytes (viewMemoryAt a)

/-- The state after a list of calls, one complete before the next begins (R150, R151). -/
def hostRun : List HostOp → State → State
  | [], s => s
  | op :: rest, s => hostRun rest (hostCall op s).1

end Sys2Proof.Machine
end

