-- ==== Sys2Proof/Safety.lean ====
section
/-! DEFINITION. What a claim about the machine may take for granted and what counts as a good run: the
invariant of the state (10_state.md R20, R33; 60_exceptions.md R161, R163, R164), and a run with no fault
latched (44_host_interface.md R151). -/

namespace Sys2Proof.Machine

/-- The faults a step can latch (R161, R163, R164): an access of one or two bytes that lies past the end of
memory, one byte only for a fetch; an ADD_REG_REG index of 10 or more; an unassigned opcode byte in strict
mode. -/
def latchable (c : Config) : Fault → Bool
  | .outOfBounds (.mem a width k) =>
    (decide (width = 1) && decide (k = .fetch) || decide (width = 2)) && decide (a < 65536)
      && decide (c.memSize < a + width)
  | .outOfBounds (.reg k offset width kind) =>
    decide (10 ≤ k) && decide (k < 256) && decide (offset = 2 * k) && decide (width = 2)
      && decide (kind = .read)
  | .unknownRegister _ => false
  | .unknownOpcode op _ => c.strictUnknownOpcode && (opcodeOf c.opcode op).isNone

/-- The invariant: legal parameters, a memory in canonical form that lists only addresses that exist, and a
fault latch that holds none or a fault a step can latch. -/
def State.inv (s : State) : Bool :=
  s.cfg.wf && s.mem.wf && s.mem.within s.cfg.memSize && s.fault.all (latchable s.cfg)

/-- A good run of k steps: every step answers a next state, and no fault is latched at its end (R151). -/
def goodRun (k : Nat) (s t : State) : Prop := Sys2Proof.core.run k s = .next t ∧ t.fault = none

end Sys2Proof.Machine
end

