-- ==== Sys2Proof/Certificates/Slice0/Obligations.lean ====
section
/-! DEFINITION. The statements for the provers, about the machine and about no program. `s.advanced k` is the
state in which the k bytes from IP on have been fetched: `s` but for IP. A statement whose docstring names a
decision D<n> or a log entry rests on that choice, and its basis is 'derived'. -/

open Sys2Proof Sys2Proof.Machine

/-! ## Encoding -/

/-- One word of each instruction, written out from the formats of R62 with the default opcode bytes of R63
(which the spec marks as general knowledge, D2; log entry 4). The last two clauses are the model's choice and
not the spec's words: the decoder rejects an unassigned byte by name (log entry 11), where R65 calls it a
one-byte instruction of format OP and R66 says that every byte sequence decodes. -/
def Obligations.WordsOfTheFormatsDecode : Prop :=
  decode defaultOpcodeMap [0x10, 0x12, 0x34, 0x02] = .ok (.movLitReg 0x1234 0x02, []) ∧
  decode defaultOpcodeMap [0x11, 0x02, 0x05] = .ok (.movRegReg 0x02 0x05, []) ∧
  decode defaultOpcodeMap [0x12, 0x01, 0xBE, 0xEF] = .ok (.movRegMem 0x01 0xBEEF, []) ∧
  decode defaultOpcodeMap [0x13, 0x01, 0x00, 0x03] = .ok (.movMemReg 0x0100 0x03, []) ∧
  decode defaultOpcodeMap [0x14, 0x02, 0x03] = .ok (.addRegReg 0x02 0x03, []) ∧
  decode defaultOpcodeMap [0x15, 0x00, 0x06, 0x12, 0x34] = .ok (.jmpNotEq 0x0006 0x1234, []) ∧
  decode defaultOpcodeMap [0x16, 0x00, 0x2A] = .ok (.movLitR2 0x002A, []) ∧
  decode defaultOpcodeMap [0x00] = .error (.unassignedOpcode 0x00) ∧
  decode defaultOpcodeMap [0x17] = .error (.unassignedOpcode 0x17)

/-- The default OPCODE is injective, and its unassigned bytes are 0x00..0x0F and 0x17..0xFF (R63, R65; the
byte values are D2's). -/
def Obligations.DefaultOpcodeBytesAreDistinct : Prop :=
  defaultOpcodeMap.injective = true ∧
  ∀ b : Byte, opcodeOf defaultOpcodeMap b = none ↔ b.toNat ≤ 0x0F ∨ 0x17 ≤ b.toNat

/-- Under an injective OPCODE, a byte selects a mnemonic exactly when it is that mnemonic's byte (R85). -/
def Obligations.DispatchSelectsTheMatchingMnemonic : Prop :=
  ∀ (oc : OpcodeMap) (b : Byte) (k : Opcode), oc.injective = true →
    (opcodeOf oc b = some k ↔ opcodeByte oc k = b)

/-- DECODE AND ENCODE AGREE: under every injective OPCODE, the bytes of every instruction, with every operand
at every value, decode to it, and the bytes after it are left (R61, R62, R64; big-endian by D1). -/
def Obligations.EncodedInstructionDecodesToItself : Prop :=
  ∀ (oc : OpcodeMap) (i : Instr) (rest : List Byte), oc.injective = true →
    decode oc (encode oc i ++ rest) = .ok (i, rest)

/-- The other direction: what decodes to an instruction is its encoding, so no two byte strings of one length
mean the same (R62; big-endian by D1). -/
def Obligations.DecodedBytesAreTheEncoding : Prop :=
  ∀ (oc : OpcodeMap) (bytes rest : List Byte) (i : Instr),
    decode oc bytes = .ok (i, rest) → bytes = encode oc i ++ rest

/-- The decoder rejects nothing but an unassigned opcode byte and a list that ends before the length its
opcode byte fixes (the lengths of R68). That it rejects an unassigned byte, by name, is the model's choice (log
entry 11) and not the spec's words: R65 calls such a byte a one-byte instruction of format OP, and R66 says that
every byte sequence decodes but for a field that crosses the end of memory, which is what a list that ends
inside a field stands for here. -/
def Obligations.DecoderRejectsOnlyUnassignedAndTruncated : Prop :=
  ∀ (oc : OpcodeMap) (bytes : List Byte),
    (∀ op, decode oc bytes = .error (.unassignedOpcode op) ↔
      bytes.head? = some op ∧ opcodeOf oc op = none) ∧
    (decode oc bytes = .error .truncated ↔
      bytes = [] ∨ ∃ op k, bytes.head? = some op ∧ opcodeOf oc op = some k ∧ bytes.length < instrLength k)

/-- The fields of the word `W` of each of the seven formats (R62; the split of 16-bit fields by D1). -/
def Obligations.InstructionWordHasTheFormatFields : Prop :=
  ∀ oc : OpcodeMap,
    (∀ lit b, instrWord (encode oc (.movLitReg lit b)) =
      oc.movLitReg.toNat * 2 ^ 24 + lit.toNat * 2 ^ 8 + b.toNat) ∧
    (∀ bf bt, instrWord (encode oc (.movRegReg bf bt)) =
      oc.movRegReg.toNat * 2 ^ 16 + bf.toNat * 2 ^ 8 + bt.toNat) ∧
    (∀ bf a, instrWord (encode oc (.movRegMem bf a)) =
      oc.movRegMem.toNat * 2 ^ 24 + bf.toNat * 2 ^ 16 + a.toNat) ∧
    (∀ a bt, instrWord (encode oc (.movMemReg a bt)) =
      oc.movMemReg.toNat * 2 ^ 24 + a.toNat * 2 ^ 8 + bt.toNat) ∧
    (∀ lit, instrWord (encode oc (.movLitR2 lit)) = oc.movLitR2.toNat * 2 ^ 16 + lit.toNat) ∧
    (∀ k1 k2, instrWord (encode oc (.addRegReg k1 k2)) =
      oc.addRegReg.toNat * 2 ^ 16 + k1.toNat * 2 ^ 8 + k2.toNat) ∧
    (∀ v a, instrWord (encode oc (.jmpNotEq v a)) =
      oc.jmpNotEq.toNat * 2 ^ 32 + v.toNat * 2 ^ 16 + a.toNat) ∧
    ∀ op : Byte, instrWord [op] = op.toNat

/-! ## Fetch and step -/

/-- A fetch that does not fault advances IP by exactly 1 or 2 modulo 2^16, whatever bytes it reads, changes
nothing else, and does not fault where its bytes exist (R82). -/
def Obligations.FetchAdvancesIpByItsWidth : Prop :=
  ∀ s t : State,
    (∀ b, fetch8 s = .ok b t → t.ip.toNat = (s.ip.toNat + 1) % 65536 ∧
      (∀ j, j ≠ ipSlot → t.reg j = s.reg j) ∧ t.mem = s.mem ∧ t.fault = s.fault ∧ t.cfg = s.cfg) ∧
    (∀ w, fetch16 s = .ok w t → t.ip.toNat = (s.ip.toNat + 2) % 65536 ∧
      (∀ j, j ≠ ipSlot → t.reg j = s.reg j) ∧ t.mem = s.mem ∧ t.fault = s.fault ∧ t.cfg = s.cfg) ∧
    (s.inBounds s.ip.toNat 1 → ∃ u, fetch8 s = .ok (s.byteAt s.ip.toNat) u) ∧
    (s.inBounds s.ip.toNat 2 → ∃ u, fetch16 s = .ok (s.wordAt s.ip.toNat) u)

/-- A fetch whose bytes do not exist faults and leaves the whole state as it was, IP too (R80, R81, and D5 for
the fault's place). -/
def Obligations.FaultingFetchLeavesIp : Prop :=
  ∀ s : State,
    (¬ s.inBounds s.ip.toNat 1 →
      fetch8 s = .error (.outOfBounds (.mem s.ip.toNat 1 .fetch)) s) ∧
    (¬ s.inBounds s.ip.toNat 2 →
      fetch16 s = .error (.outOfBounds (.mem s.ip.toNat 2 .fetch)) s)

/-- A STEP RUNS THE DECODED INSTRUCTION: when no fault is latched, the bytes from IP on (running past 0xFFFF
into 0x0000) decode to an instruction and every field of it is in bounds, the step is that instruction's
`exec` from the state past the instruction's bytes (R67, R84, R85, R87; log entry 7). -/
def Obligations.StepRunsTheDecodedInstruction : Prop :=
  ∀ (s : State) (i : Instr) (rest : List Byte), s.cfg.wf = true → s.fault = none →
    decode s.cfg.opcode (s.codeBytes maxInstrLength) = .ok (i, rest) → i.wf = true →
    s.fieldsFit 0 (1 :: operandWidths i.opcode) = true →
    step s = exec i (s.advanced (instrLength i.opcode))

/-- An opcode fetch at or past the end of memory faults, and IP keeps the address: this is where a jump to a
target past the end of memory faults (R84, R131; the latch by D5). -/
def Obligations.OpcodeFetchPastMemoryFaults : Prop :=
  ∀ s : State, s.fault = none → s.cfg.memSize ≤ s.ip.toNat →
    step s = .next (latchFault (.outOfBounds (.mem s.ip.toNat 1 .fetch)) s)

/-- UnknownOpcode: in strict mode an unassigned opcode byte raises it after the opcode fetch has advanced IP,
recording the byte and its address; in the default mode the same byte changes nothing but IP; and a step
latches it in no other case (R164). -/
def Obligations.UnassignedOpcodeIsNoOpOrUnknownOpcode : Prop :=
  ∀ s : State, s.fault = none →
    (s.fieldFits 0 1 → opcodeOf s.cfg.opcode (s.codeByte 0) = none →
      (s.cfg.strictUnknownOpcode = false → step s = .next (s.advanced 1)) ∧
      (s.cfg.strictUnknownOpcode = true →
        step s = .next (latchFault (.unknownOpcode (s.codeByte 0) s.ip) (s.advanced 1)))) ∧
    ∀ (t : State) (op : Byte) (a : Word), step s = .next t → t.fault = some (.unknownOpcode op a) →
      s.cfg.strictUnknownOpcode = true ∧ s.fieldFits 0 1 ∧ opcodeOf s.cfg.opcode op = none ∧
      op = s.codeByte 0 ∧ a = s.ip

/-- A latched fault stops the engine: the step answers the fault, and the host gets it back with the state
unchanged (R84, R143, R168; D5 and log entry 2). -/
def Obligations.LatchedFaultStopsTheEngine : Prop :=
  ∀ (s : State) (f : Fault), s.fault = some f →
    step s = .fault f ∧ hostStep s = (s, .error f)

/-- With no fault latched a step always ends in a next state, so no instruction and no byte is refused
(R66, R88, R195; that a fault raised in the step is a next state too is log entry 2). -/
def Obligations.StepWithNoLatchedFaultAnswersNext : Prop :=
  ∀ s : State, s.fault = none → ∃ t, step s = .next t

/-- What the host gets from a step: ok when no fault was raised in it, else the fault, with the state the step
leaves (R143; D5). -/
def Obligations.HostStepRepliesWithTheRaisedFault : Prop :=
  ∀ s : State, s.fault = none → ∃ t, step s = .next t ∧
    (t.fault = none → hostStep s = (t, .ok)) ∧
    ∀ f, t.fault = some f → hostStep s = (t, .error f)

/-- IP after a step that does not fault: the value an instruction wrote to slot 0, else the fall-through
address `(start + length) mod 2^16` (R90). -/
def Obligations.IpAfterAStepThatDoesNotFault : Prop :=
  ∀ (s t : State) (k : Opcode), s.fault = none → s.fieldFits 0 1 →
    opcodeOf s.cfg.opcode (s.codeByte 0) = some k → step s = .next t → t.fault = none →
    t.ip = match s.codeInstr k with
      | .movLitReg lit b => if b.toNat % 10 = 0 then lit else s.ip + 4
      | .movRegReg bf bt =>
        if bt.toNat % 10 = 0 ∧ bf.toNat % 10 ≠ 0 then s.reg (slot bf) else s.ip + 3
      | .movRegMem _ _ => s.ip + 4
      | .movMemReg a bt => if bt.toNat % 10 = 0 then s.wordAt a.toNat else s.ip + 4
      | .movLitR2 _ => s.ip + 3
      | .addRegReg _ _ => s.ip + 3
      | .jmpNotEq v a => if v = s.reg accSlot then s.ip + 5 else a

/-- OutOfBounds inside a step, in exactly the cases of the table of R161, each with what it records: the
opcode fetch; the first operand field that does not fit; the data access of MOV_MEM_REG and of MOV_REG_MEM; an
ADD_REG_REG index of 10 or more, the first one first. -/
def Obligations.OutOfBoundsRaisedExactlyInTheListedCases : Prop :=
  ∀ (s t : State) (info : OutOfBounds), s.fault = none → step s = .next t →
    (t.fault = some (.outOfBounds info) ↔
      (s.cfg.memSize ≤ s.ip.toNat ∧ info = .mem s.ip.toNat 1 .fetch) ∨
      (s.ip.toNat < s.cfg.memSize ∧ ∃ k, opcodeOf s.cfg.opcode (s.codeByte 0) = some k ∧
        ((∃ pre n post, operandWidths k = pre ++ n :: post ∧ s.fieldsFit 1 pre = true ∧
            ¬ s.fieldFits (1 + pre.sum) n ∧ info = .mem (s.codeAddr (1 + pre.sum)) n .fetch) ∨
          (s.fieldsFit 1 (operandWidths k) = true ∧
            ((k = .movMemReg ∧ s.cfg.memSize < (s.codeWord 1).toNat + 2 ∧
                info = .mem (s.codeWord 1).toNat 2 .read) ∨
              (k = .movRegMem ∧ s.cfg.memSize < (s.codeWord 2).toNat + 2 ∧
                info = .mem (s.codeWord 2).toNat 2 .write) ∨
              (k = .addRegReg ∧ 10 ≤ (s.codeByte 1).toNat ∧
                info = .reg (s.codeByte 1).toNat (2 * (s.codeByte 1).toNat) 2 .read) ∨
              (k = .addRegReg ∧ (s.codeByte 1).toNat < 10 ∧ 10 ≤ (s.codeByte 2).toNat ∧
                info = .reg (s.codeByte 2).toNat (2 * (s.codeByte 2).toNat) 2 .read))))))

/-- With MEM_SIZE = 65536 two kinds of OutOfBounds are left: a 16-bit access at 0xFFFF, and an ADD_REG_REG
index of 10 or more (R161, and the preamble of 41_data_movement.md). -/
def Obligations.FullMemoryFaultsOnlyAtTheTopOrOnAnIndex : Prop :=
  ∀ (s t : State) (info : OutOfBounds), s.cfg.memSize = 65536 → s.fault = none → step s = .next t →
    t.fault = some (.outOfBounds info) →
    (∃ k, info = .mem 0xFFFF 2 k) ∨
    ∃ b : Byte, 10 ≤ b.toNat ∧ info = .reg b.toNat (2 * b.toNat) 2 .read

/-! ## One step of each instruction, from its opcode byte in memory -/

/-- MOV_LIT_REG (R101). -/
def Obligations.MovLitRegStep : Prop :=
  ∀ s : State, s.cfg.wf = true → s.fault = none → s.fieldFits 0 1 →
    s.codeByte 0 = s.cfg.opcode.movLitReg →
    (¬ s.fieldFits 1 2 →
      step s = .next (latchFault (.outOfBounds (.mem (s.codeAddr 1) 2 .fetch)) (s.advanced 1))) ∧
    (s.fieldFits 1 2 → ¬ s.fieldFits 3 1 →
      step s = .next (latchFault (.outOfBounds (.mem (s.codeAddr 3) 1 .fetch)) (s.advanced 3))) ∧
    (s.fieldFits 1 2 → s.fieldFits 3 1 →
      step s = .next ((s.advanced 4).setReg (slot (s.codeByte 3)) (s.codeWord 1)))

/-- MOV_REG_REG: slot 0 is read as the fall-through address (R102). -/
def Obligations.MovRegRegStep : Prop :=
  ∀ s : State, s.cfg.wf = true → s.fault = none → s.fieldFits 0 1 →
    s.codeByte 0 = s.cfg.opcode.movRegReg →
    (¬ s.fieldFits 1 1 →
      step s = .next (latchFault (.outOfBounds (.mem (s.codeAddr 1) 1 .fetch)) (s.advanced 1))) ∧
    (s.fieldFits 1 1 → ¬ s.fieldFits 2 1 →
      step s = .next (latchFault (.outOfBounds (.mem (s.codeAddr 2) 1 .fetch)) (s.advanced 2))) ∧
    (s.fieldFits 1 1 → s.fieldFits 2 1 →
      step s = .next ((s.advanced 3).setReg (slot (s.codeByte 2))
        (if slot (s.codeByte 1) = ipSlot then s.ip + 3 else s.reg (slot (s.codeByte 1)))))

/-- MOV_REG_MEM: the stored bytes are where its address operand says, high byte first, and every other byte
and every register but IP is as before (R103). -/
def Obligations.MovRegMemStep : Prop :=
  ∀ s : State, s.cfg.wf = true → s.mem.wf = true → s.fault = none → s.fieldFits 0 1 →
    s.codeByte 0 = s.cfg.opcode.movRegMem →
    (¬ s.fieldFits 1 1 →
      step s = .next (latchFault (.outOfBounds (.mem (s.codeAddr 1) 1 .fetch)) (s.advanced 1))) ∧
    (s.fieldFits 1 1 → ¬ s.fieldFits 2 2 →
      step s = .next (latchFault (.outOfBounds (.mem (s.codeAddr 2) 2 .fetch)) (s.advanced 2))) ∧
    (s.fieldFits 1 1 → s.fieldFits 2 2 → ¬ s.inBounds (s.codeWord 2).toNat 2 →
      step s = .next (latchFault (.outOfBounds (.mem (s.codeWord 2).toNat 2 .write)) (s.advanced 4))) ∧
    (s.fieldFits 1 1 → s.fieldFits 2 2 → s.inBounds (s.codeWord 2).toNat 2 →
      ∃ t, step s = .next t ∧
        (∀ x, t.byteAt x =
          if x = (s.codeWord 2).toNat then firstByte ((s.advanced 4).reg (slot (s.codeByte 1)))
          else if x = (s.codeWord 2).toNat + 1 then
            secondByte ((s.advanced 4).reg (slot (s.codeByte 1)))
          else s.byteAt x) ∧
        (∀ j, t.reg j = (s.advanced 4).reg j) ∧ t.fault = none ∧ t.cfg = s.cfg)

/-- MOV_MEM_REG (R104). -/
def Obligations.MovMemRegStep : Prop :=
  ∀ s : State, s.cfg.wf = true → s.fault = none → s.fieldFits 0 1 →
    s.codeByte 0 = s.cfg.opcode.movMemReg →
    (¬ s.fieldFits 1 2 →
      step s = .next (latchFault (.outOfBounds (.mem (s.codeAddr 1) 2 .fetch)) (s.advanced 1))) ∧
    (s.fieldFits 1 2 → ¬ s.fieldFits 3 1 →
      step s = .next (latchFault (.outOfBounds (.mem (s.codeAddr 3) 1 .fetch)) (s.advanced 3))) ∧
    (s.fieldFits 1 2 → s.fieldFits 3 1 → ¬ s.inBounds (s.codeWord 1).toNat 2 →
      step s = .next (latchFault (.outOfBounds (.mem (s.codeWord 1).toNat 2 .read)) (s.advanced 4))) ∧
    (s.fieldFits 1 2 → s.fieldFits 3 1 → s.inBounds (s.codeWord 1).toNat 2 →
      step s = .next ((s.advanced 4).setReg (slot (s.codeByte 3)) (s.wordAt (s.codeWord 1).toNat)))

/-- MOV_LIT_R2 (R105). -/
def Obligations.MovLitR2Step : Prop :=
  ∀ s : State, s.cfg.wf = true → s.fault = none → s.fieldFits 0 1 →
    s.codeByte 0 = s.cfg.opcode.movLitR2 →
    (¬ s.fieldFits 1 2 →
      step s = .next (latchFault (.outOfBounds (.mem (s.codeAddr 1) 2 .fetch)) (s.advanced 1))) ∧
    (s.fieldFits 1 2 → step s = .next ((s.advanced 3).setReg r2Slot (s.codeWord 1)))

/-- ADD_REG_REG: the sum, and slot 0 read as the fall-through address (R120). That an index of 10 or more
raises OutOfBounds of the register space, the first one reported first, is what R120 marks as its own inference
and choice of reading (C2, C3, D9; log entry 9). -/
def Obligations.AddRegRegStep : Prop :=
  ∀ s : State, s.cfg.wf = true → s.fault = none → s.fieldFits 0 1 →
    s.codeByte 0 = s.cfg.opcode.addRegReg →
    (¬ s.fieldFits 1 1 →
      step s = .next (latchFault (.outOfBounds (.mem (s.codeAddr 1) 1 .fetch)) (s.advanced 1))) ∧
    (s.fieldFits 1 1 → ¬ s.fieldFits 2 1 →
      step s = .next (latchFault (.outOfBounds (.mem (s.codeAddr 2) 1 .fetch)) (s.advanced 2))) ∧
    (s.fieldFits 1 1 → s.fieldFits 2 1 → 10 ≤ (s.codeByte 1).toNat →
      step s = .next (latchFault (.outOfBounds (.reg (s.codeByte 1).toNat (2 * (s.codeByte 1).toNat) 2
        .read)) (s.advanced 3))) ∧
    (s.fieldFits 1 1 → s.fieldFits 2 1 → (s.codeByte 1).toNat < 10 → 10 ≤ (s.codeByte 2).toNat →
      step s = .next (latchFault (.outOfBounds (.reg (s.codeByte 2).toNat (2 * (s.codeByte 2).toNat) 2
        .read)) (s.advanced 3))) ∧
    (s.fieldFits 1 1 → s.fieldFits 2 1 →
      ∀ (h1 : (s.codeByte 1).toNat < 10) (h2 : (s.codeByte 2).toNat < 10),
        step s = .next ((s.advanced 3).setReg accSlot
          ((s.advanced 3).reg ⟨(s.codeByte 1).toNat, h1⟩ + (s.advanced 3).reg ⟨(s.codeByte 2).toNat, h2⟩)))

/-- JMP_NOT_EQ: the target is checked by nothing (R130). -/
def Obligations.JmpNotEqStep : Prop :=
  ∀ s : State, s.cfg.wf = true → s.fault = none → s.fieldFits 0 1 →
    s.codeByte 0 = s.cfg.opcode.jmpNotEq →
    (¬ s.fieldFits 1 2 →
      step s = .next (latchFault (.outOfBounds (.mem (s.codeAddr 1) 2 .fetch)) (s.advanced 1))) ∧
    (s.fieldFits 1 2 → ¬ s.fieldFits 3 2 →
      step s = .next (latchFault (.outOfBounds (.mem (s.codeAddr 3) 2 .fetch)) (s.advanced 3))) ∧
    (s.fieldFits 1 2 → s.fieldFits 3 2 → s.codeWord 1 ≠ s.reg accSlot →
      step s = .next (s.setIp (s.codeWord 3))) ∧
    (s.fieldFits 1 2 → s.fieldFits 3 2 → s.codeWord 1 = s.reg accSlot →
      step s = .next (s.advanced 5))

/-! ## Each instruction completes, with its result and what it leaves unchanged

`exec` starts past the operand fetches, where slot 0 holds the fall-through address (log entry 7). -/

/-- MOV_LIT_REG always completes: the slot named by its index byte modulo 10 holds the literal, and nothing
else changes. -/
def Obligations.MovLitRegCompletes : Prop :=
  ∀ (lit : Word) (b : Byte) (s : State), ∃ t, exec (.movLitReg lit b) s = .next t ∧
    (∀ j : Slot, t.reg j = if j.val = b.toNat % 10 then lit else s.reg j) ∧
    (∀ a, t.byteAt a = s.byteAt a) ∧ t.fault = s.fault ∧ t.cfg = s.cfg

/-- MOV_REG_REG always completes: the destination holds what the source held, and nothing else changes. -/
def Obligations.MovRegRegCompletes : Prop :=
  ∀ (bf bt : Byte) (s : State), ∃ t, exec (.movRegReg bf bt) s = .next t ∧
    (∀ i j : Slot, i.val = bf.toNat % 10 →
      t.reg j = if j.val = bt.toNat % 10 then s.reg i else s.reg j) ∧
    (∀ a, t.byteAt a = s.byteAt a) ∧ t.fault = s.fault ∧ t.cfg = s.cfg

/-- MOV_REG_MEM completes when its two bytes exist: they hold the source register, high byte first, and
nothing else changes (big-endian by D1). -/
def Obligations.MovRegMemCompletes : Prop :=
  ∀ (bf : Byte) (a : Word) (s : State), s.mem.wf = true → s.inBounds (byteAddress a) 2 →
    ∃ t, exec (.movRegMem bf a) s = .next t ∧
      t.byteAt (byteAddress a) = firstByte (s.reg (slot bf)) ∧
      t.byteAt (byteAddress a + 1) = secondByte (s.reg (slot bf)) ∧
      (∀ x, x ≠ byteAddress a → x ≠ byteAddress a + 1 → t.byteAt x = s.byteAt x) ∧
      (∀ j, t.reg j = s.reg j) ∧ t.fault = s.fault ∧ t.cfg = s.cfg

/-- MOV_MEM_REG completes when its two bytes exist: the destination holds the first byte times 256 plus the
second, and nothing else changes (big-endian by D1). -/
def Obligations.MovMemRegCompletes : Prop :=
  ∀ (a : Word) (bt : Byte) (s : State), s.inBounds (byteAddress a) 2 →
    ∃ t, exec (.movMemReg a bt) s = .next t ∧
      (t.reg (slot bt)).toNat =
        (s.byteAt (byteAddress a)).toNat * 256 + (s.byteAt (byteAddress a + 1)).toNat ∧
      (∀ j, j ≠ slot bt → t.reg j = s.reg j) ∧
      (∀ x, t.byteAt x = s.byteAt x) ∧ t.fault = s.fault ∧ t.cfg = s.cfg

/-- MOV_LIT_R2 always completes: slot 3 holds the literal, and nothing else changes. -/
def Obligations.MovLitR2Completes : Prop :=
  ∀ (lit : Word) (s : State), ∃ t, exec (.movLitR2 lit) s = .next t ∧
    t.reg 3 = lit ∧ (∀ j, j ≠ 3 → t.reg j = s.reg j) ∧
    (∀ a, t.byteAt a = s.byteAt a) ∧ t.fault = s.fault ∧ t.cfg = s.cfg

/-- ADD_REG_REG completes when both indices are below 10: the accumulator holds the sum modulo 2^16, an
overflow raises nothing, and nothing else changes (R121). -/
def Obligations.AddRegRegSumIsModulo65536 : Prop :=
  ∀ (k1 k2 : Byte) (h1 : k1.toNat < 10) (h2 : k2.toNat < 10) (s : State),
    ∃ t, exec (.addRegReg k1 k2) s = .next t ∧
      (t.reg 1).toNat =
        ((s.reg ⟨k1.toNat, h1⟩).toNat + (s.reg ⟨k2.toNat, h2⟩).toNat) % 65536 ∧
      (∀ j, j ≠ 1 → t.reg j = s.reg j) ∧
      (∀ a, t.byteAt a = s.byteAt a) ∧ t.fault = s.fault ∧ t.cfg = s.cfg

/-- JMP_NOT_EQ always completes: IP is the target exactly when the operand differs from the accumulator, and
nothing else changes. -/
def Obligations.JmpNotEqCompletes : Prop :=
  ∀ (v a : Word) (s : State), ∃ t, exec (.jmpNotEq v a) s = .next t ∧
    t.ip = (if v.toNat = (s.reg 1).toNat then s.ip else a) ∧
    (∀ j, j ≠ ipSlot → t.reg j = s.reg j) ∧
    (∀ x, t.byteAt x = s.byteAt x) ∧ t.fault = s.fault ∧ t.cfg = s.cfg

/-- A load or a store whose two bytes do not both exist latches OutOfBounds with its address and kind, and
changes nothing else, whatever the register (R103, R104; the latch by D5). -/
def Obligations.LoadOrStorePastMemoryLatchesOutOfBounds : Prop :=
  ∀ (a : Word) (b : Byte) (s : State), ¬ s.inBounds (byteAddress a) 2 →
    exec (.movMemReg a b) s = .next { s with fault := some (.outOfBounds (.mem a.toNat 2 .read)) } ∧
    exec (.movRegMem b a) s = .next { s with fault := some (.outOfBounds (.mem a.toNat 2 .write)) }

/-- An ADD_REG_REG index of 10 or more latches OutOfBounds of the register space and changes nothing else;
the first index is reported when both are (D9; the latch by D5). -/
def Obligations.AddIndexOfTenOrMoreLatchesOutOfBounds : Prop :=
  ∀ (k1 k2 : Byte) (s : State),
    (10 ≤ k1.toNat → exec (.addRegReg k1 k2) s =
      .next { s with fault := some (.outOfBounds (.reg k1.toNat (2 * k1.toNat) 2 .read)) }) ∧
    (k1.toNat < 10 → 10 ≤ k2.toNat → exec (.addRegReg k1 k2) s =
      .next { s with fault := some (.outOfBounds (.reg k2.toNat (2 * k2.toNat) 2 .read)) })

/-- FRAME of the six instructions that store nothing, however they end: every byte of memory, the parameters
and every register but the destination are as before, and the fault latch too unless the instruction latched
an OutOfBounds fault and did nothing else. There are no flags. -/
def Obligations.InstructionsThatStoreNothingFrame : Prop :=
  ∀ (i : Instr) (s t : State), exec i s = .next t → i.opcode ≠ .movRegMem →
    (∀ a, t.byteAt a = s.byteAt a) ∧ t.cfg = s.cfg ∧
    (t.fault = s.fault ∨ ∃ info, t = latchFault (.outOfBounds info) s) ∧
    ∀ j : Slot, t.reg j ≠ s.reg j →
      match i with
      | .movLitReg _ b => j = slot b
      | .movRegReg _ bt => j = slot bt
      | .movRegMem _ _ => False
      | .movMemReg _ bt => j = slot bt
      | .movLitR2 _ => j = 3
      | .addRegReg _ _ => j = 1
      | .jmpNotEq _ _ => j = 0

/-- FRAME of MOV_REG_MEM, however it ends: every register, IP too, and the parameters are as before, and so
is every byte but the two at its address operand, and the fault latch unless the instruction latched an
OutOfBounds fault and did nothing else. -/
def Obligations.MovRegMemFrame : Prop :=
  ∀ (bf : Byte) (a : Word) (s t : State), s.mem.wf = true → exec (.movRegMem bf a) s = .next t →
    (∀ x, x ≠ byteAddress a → x ≠ byteAddress a + 1 → t.byteAt x = s.byteAt x) ∧
    (∀ j, t.reg j = s.reg j) ∧ t.cfg = s.cfg ∧
    (t.fault = s.fault ∨ ∃ info, t = latchFault (.outOfBounds info) s)

/-- `slot(b) = b mod 10`: it never fails, b and b + 10 name one slot, bytes 0 to 9 name slots 0 to 9, the four
MOV opcodes that take an index byte do the same with b + 10 as with b (R100). ADD_REG_REG does not use it
(R100): the third clause shows this by the fault of a first index of 10 or more, which is not R100's but the
choice R120 marks as its own (D9; log entry 9). -/
def Obligations.MovIndexWrapsModuloTen : Prop :=
  (∀ b : Byte, (slot b).val = b.toNat % 10) ∧
  (∀ (b c : Byte), c.toNat = b.toNat + 10 → ∀ (w : Word) (r : Byte) (s : State),
    exec (.movLitReg w c) s = exec (.movLitReg w b) s ∧
    exec (.movRegReg c r) s = exec (.movRegReg b r) s ∧
    exec (.movRegReg r c) s = exec (.movRegReg r b) s ∧
    exec (.movRegMem c w) s = exec (.movRegMem b w) s ∧
    exec (.movMemReg w c) s = exec (.movMemReg w b) s) ∧
  ∀ (c r : Byte) (s t : State), 10 ≤ c.toNat → exec (.addRegReg c r) s = .next t →
    t.fault = some (.outOfBounds (.reg c.toNat (2 * c.toNat) 2 .read))

/-! ## The whole machine -/

/-- Only MOV_REG_MEM changes memory: a step whose opcode byte is not its byte leaves memory as it is (R46,
and the table of R23). -/
def Obligations.OnlyMovRegMemChangesMemory : Prop :=
  ∀ s t : State, step s = .next t → t.mem ≠ s.mem →
    s.fieldFits 0 1 ∧ opcodeOf s.cfg.opcode (s.codeByte 0) = some .movRegMem

/-- The slots a step can change besides IP are those of the table of R23. -/
def Obligations.StepWritesOnlyTheTabledSlots : Prop :=
  ∀ (s t : State) (j : Slot), step s = .next t → j ≠ ipSlot → t.reg j ≠ s.reg j →
    ∃ k, opcodeOf s.cfg.opcode (s.codeByte 0) = some k ∧
      ((k = .movLitReg ∧ j = slot (s.codeByte 3)) ∨ (k = .movRegReg ∧ j = slot (s.codeByte 2)) ∨
        (k = .movMemReg ∧ j = slot (s.codeByte 3)) ∨ (k = .movLitR2 ∧ j = r2Slot) ∨
        (k = .addRegReg ∧ j = accSlot))

/-- A step that raises a fault writes no register but IP and no byte of memory (R167; D5). -/
def Obligations.FaultingStepWritesNothingButIp : Prop :=
  ∀ (s t : State) (f : Fault), s.fault = none → step s = .next t → t.fault = some f →
    t.mem = s.mem ∧ t.cfg = s.cfg ∧ ∀ j, j ≠ ipSlot → t.reg j = s.reg j

/-- No step raises UnknownRegister; `getRegister` and `setRegister` raise it exactly on a name outside the
ten, and then change nothing (R163). -/
def Obligations.UnknownRegisterOnlyAtTheHostPort : Prop :=
  (∀ (s t : State) (name : String), s.fault = none → step s = .next t →
    t.fault ≠ some (.unknownRegister name)) ∧
  ∀ (s : State) (name : String) (v : Int),
    (name ∉ registerNames → getRegister name s = .error (.unknownRegister name) s ∧
      setRegister name v s = .error (.unknownRegister name) s) ∧
    (name ∈ registerNames → ∃ w t, getRegister name s = .ok w s ∧ setRegister name v s = .ok () t)

/-- THE INVARIANT IS KEPT BY EVERY STEP: legal parameters, memory in canonical form listing only addresses
that exist, and a latch that holds none or one of the faults R161 and R164 allow. -/
def Obligations.InvariantKeptByEveryStep : Prop :=
  ∀ s t : State, s.inv = true → step s = .next t → t.inv = true

/-- The invariant holds after reset and after every construction. -/
def Obligations.InvariantHoldsAfterConstruction : Prop :=
  State.reset.inv = true ∧ ∀ c : Config, c.wf = true → (State.constructed c).inv = true

/-- THE INVARIANT HOLDS ALONG EVERY RUN: from every state that has it, any list of host calls, steps among
them, leads to a state that has it (R33, R150, R151). -/
def Obligations.InvariantHoldsAlongEveryHostRun : Prop :=
  ∀ (ops : List HostOp) (s : State), s.inv = true → (hostRun ops s).inv = true

/-- The parameters are constant, and a latched fault stays latched, along every run: nothing clears it but
construction (R20, R33, R168). -/
def Obligations.ParametersAndLatchedFaultStay : Prop :=
  ∀ (ops : List HostOp) (s : State),
    (hostRun ops s).cfg = s.cfg ∧ ∀ f, s.fault = some f → (hostRun ops s).fault = some f

/-- A good run has no fault latched at its start or anywhere on its way: every shorter run from its start is
good too, so a faulted run is never a good end (R151; D11). -/
def Obligations.GoodRunsNeverPassAFault : Prop :=
  ∀ (k : Nat) (s t : State), goodRun k s t → s.fault = none ∧ ∀ j, j ≤ k → ∃ u, goodRun j s u

/-- A word stored by MOV_REG_MEM is what the next fetch reads there, with nothing in between (R56, R194). -/
def Obligations.StoredBytesAreFetchedNext : Prop :=
  ∀ (bf : Byte) (a : Word) (s t : State), s.mem.wf = true → s.inBounds (byteAddress a) 2 →
    exec (.movRegMem bf a) s = .next t →
    (∃ u, fetch8 (t.setIp a) = .ok (firstByte (s.reg (slot bf))) u) ∧
    ∃ u, fetch16 (t.setIp a) = .ok (s.reg (slot bf)) u

/-- JMP_NOT_EQ to its own address, with an operand that differs from the accumulator, repeats forever: any
number of steps later the state is the same (R130, R198). -/
def Obligations.JumpToItselfRunsForever : Prop :=
  ∀ s : State, s.cfg.wf = true → s.fault = none →
    opcodeOf s.cfg.opcode (s.codeByte 0) = some .jmpNotEq →
    s.fieldsFit 0 [1, 2, 2] = true → s.codeWord 1 ≠ s.reg accSlot → s.codeWord 3 = s.ip →
    ∀ k, core.run k s = .next s

/-! ## Memory -/

/-- An access of n bytes at a fails exactly when `a + n > MEM_SIZE`, a sum that does not wrap, and a failing
access changes nothing (R41). -/
def Obligations.AccessFailsExactlyOutOfBounds : Prop :=
  ∀ (s : State) (a : Nat) (k : AccessKind) (w : Word) (b : Byte),
    (s.cfg.memSize < a + 1 → memRead8 k a s = .error (.outOfBounds (.mem a 1 k)) s ∧
      memWrite8 a b s = .error (.outOfBounds (.mem a 1 .write)) s) ∧
    (s.cfg.memSize < a + 2 → memRead16 k a s = .error (.outOfBounds (.mem a 2 k)) s ∧
      memWrite16 a w s = .error (.outOfBounds (.mem a 2 .write)) s) ∧
    (a + 1 ≤ s.cfg.memSize → (∃ v, memRead8 k a s = .ok v s) ∧ ∃ t, memWrite8 a b s = .ok () t) ∧
    (a + 2 ≤ s.cfg.memSize → (∃ v, memRead16 k a s = .ok v s) ∧ ∃ t, memWrite16 a w s = .ok () t)

/-- The mixed-width view: after a 16-bit write, the byte at the address is bits 15:8 and the next is bits 7:0,
the word reads back, and no other byte changes (R47; big-endian is D1's choice, log entry 3). -/
def Obligations.WordWriteIsBigEndian : Prop :=
  ∀ (s t : State) (a : Nat) (v : Word) (k : AccessKind), s.mem.wf = true → memWrite16 a v s = .ok () t →
    (∃ b, memRead8 k a t = .ok b t ∧ b.toNat = v.toNat / 256) ∧
    (∃ b, memRead8 k (a + 1) t = .ok b t ∧ b.toNat = v.toNat % 256) ∧
    memRead16 k a t = .ok v t ∧
    ∀ x, x ≠ a → x ≠ a + 1 → t.byteAt x = s.byteAt x

/-- The register file as its buffer of 20 bytes: slot i at the even offset 2i, high byte first (R22; big-endian
by D1). -/
def Obligations.RegisterBufferHoldsSlotsAtEvenOffsets : Prop :=
  ∀ (s : State) (i : Slot), s.registerBuffer.length = 20 ∧
    s.registerBuffer[2 * i.val]? = some (firstByte (s.reg i)) ∧
    s.registerBuffer[2 * i.val + 1]? = some (secondByte (s.reg i))

/-! ## Construction and the host port -/

/-- The state after reset (R34, R190): IP, every other register, every byte and the latch. The zeros are the
spec's own choice (D4; log entry 5), and so is a latch (D5). -/
def Obligations.ResetStateIsAllZero : Prop :=
  (∀ i, State.reset.reg i = 0) ∧ (∀ a, State.reset.byteAt a = 0) ∧ State.reset.fault = none ∧
  State.reset.cfg.memSize = 65536 ∧ State.reset.cfg.strictUnknownOpcode = false

/-- `new` gives a machine for the sizes 1 to 65536 and no other, all its registers and bytes zero and no fault
latched (R141, R190; D3, D4; log entries 5 and 15). -/
def Obligations.NewGivesAZeroedMachineOrNone : Prop :=
  ∀ n : Nat,
    (1 ≤ n → n ≤ 65536 → ∃ s, new n = some s ∧ s.cfg.memSize = n ∧ (∀ i, s.reg i = 0) ∧
      (∀ a, s.byteAt a = 0) ∧ s.fault = none) ∧
    (n = 0 ∨ 65536 < n → new n = none)

/-- `setRegister` on a name of the ten writes the value modulo 2^16 into its slot and nothing else; read back,
`getRegister(name) == v mod 2^16`; on any other name it changes nothing (R145). -/
def Obligations.SetRegisterTruncatesTo16Bits : Prop :=
  ∀ (s : State) (name : String) (v : Int),
    (name ∉ registerNames → setRegister name v s = .error (.unknownRegister name) s) ∧
    ∀ i : Slot, registerNames[i.val]? = some name →
      ∃ t, setRegister name v s = .ok () t ∧
        ((t.reg i).toNat : Int) = v % 65536 ∧ getRegister name t = .ok (t.reg i) t ∧
        (∀ j, j ≠ i → t.reg j = s.reg j) ∧ t.mem = s.mem ∧ t.fault = s.fault ∧ t.cfg = s.cfg

/-- `writeU16` in bounds, read back as a word, is the value modulo 2^16, and it is the same as writing its two
bytes with `writeU8` (R146; the byte order by D1). -/
def Obligations.HostWordWriteRoundTrips : Prop :=
  ∀ (s : State) (a : Nat) (v : Int), s.mem.wf = true → a + 2 ≤ s.cfg.memSize →
    ∃ t, writeU16 a v s = .ok () t ∧
      (∃ w : Word, readMemory16 a t = .ok w t ∧ (w.toNat : Int) = v % 65536) ∧
      (do writeU8 a (v / 256); writeU8 (a + 1) v) s = .ok () t

/-- `load` writes every byte at its address, or nothing at all when one of them does not exist (R142; D13). -/
def Obligations.LoadWritesAllOrNothing : Prop :=
  ∀ (s : State) (bs : List Byte) (a : Nat), s.mem.wf = true →
    (s.cfg.memSize < a + bs.length →
      load bs a s = .error (.outOfBounds (.mem a bs.length .write)) s) ∧
    (a + bs.length ≤ s.cfg.memSize → ∃ t, load bs a s = .ok () t ∧
      (∀ x, t.byteAt x = if a ≤ x ∧ x < a + bs.length then bs.getD (x - a) 0 else s.byteAt x) ∧
      (∀ j, t.reg j = s.reg j) ∧ t.fault = s.fault ∧ t.cfg = s.cfg)

/-- An error a host call other than `step` returns changes no state, so it does not latch (R149; D13). -/
def Obligations.HostErrorChangesNothing : Prop :=
  ∀ (op : HostOp) (s t : State) (f : Fault), op ≠ .step → hostCall op s = (t, .error f) → t = s

/-- The reads and the views change no state, and show what is there: a register by name, a byte, a word, the
ten registers, eight bytes (R144, R146, R147, R148; D16, D17; log entry 14 for the text). -/
def Obligations.HostReadsChangeNothing : Prop :=
  ∀ (s : State) (a : Nat),
    (∀ (i : Slot) (name : String), registerNames[i.val]? = some name →
      hostCall (.getRegister name) s = (s, .word (s.reg i))) ∧
    hostCall .debug s = (s, .registers (registerNames.zip s.regs.toList)) ∧
    (a + 1 ≤ s.cfg.memSize → hostCall (.readMemory8 a) s = (s, .byte (s.byteAt a))) ∧
    (a + 2 ≤ s.cfg.memSize →
      hostCall (.readMemory16 a) s = (s, .word (joinWord (s.byteAt a) (s.byteAt (a + 1))))) ∧
    (a + 8 ≤ s.cfg.memSize → ∃ l, hostCall (.viewMemoryAt a) s = (s, .bytes l) ∧ l.length = 8 ∧
      ∀ k, k < 8 → l[k]? = some (s.byteAt (a + k))) ∧
    (s.cfg.memSize < a + 8 →
      hostCall (.viewMemoryAt a) s = (s, .error (.outOfBounds (.mem a 8 .read))))
end

