-- ==== Sys2Proof/Laws/Decode.lean ====
section
/-! SUPPORT. The opcode map and the decoder's byte source, one lemma each. -/

namespace Sys2Proof

/-- An assigned byte is the byte of the mnemonic found for it. -/
theorem opcodeByte_of_opcodeOf {oc : OpcodeMap} {b : Byte} {k : Opcode} (h : opcodeOf oc b = some k) :
    opcodeByte oc k = b := by
  simp only [opcodeOf] at h
  split_ifs at h <;> cases h <;> simp_all [opcodeByte]

/-- Under an injective map every mnemonic is found from its byte. -/
theorem opcodeOf_opcodeByte {oc : OpcodeMap} (h : oc.injective = true) (k : Opcode) :
    opcodeOf oc (opcodeByte oc k) = some k := by
  simp only [OpcodeMap.injective, OpcodeMap.bytes] at h
  simp only [List.nodup_cons, List.mem_cons, List.not_mem_nil, or_false, not_or, List.nodup_nil] at h
  cases k <;> simp only [opcodeByte, opcodeOf] <;> grind

theorem parser_bind {α β : Type} (m : ByteParser α) (f : α → ByteParser β) (bs : List Byte) :
    (m >>= f) bs = match m bs with
      | .ok a rest => f a rest
      | .error e rest => .error e rest := by
  rcases h : m bs <;> simp [bind, EStateM.bind, h]

theorem parser_pure {α : Type} (a : α) (bs : List Byte) : (pure a : ByteParser α) bs = .ok a bs := rfl

@[simp] theorem next8_cons (b : Byte) (rest : List Byte) : next8 (b :: rest) = .ok b rest := rfl

@[simp] theorem next8_nil : next8 [] = .error .truncated [] := rfl

@[simp] theorem next16_cons (b0 b1 : Byte) (rest : List Byte) :
    next16 (b0 :: b1 :: rest) = .ok (joinWord b0 b1) rest := rfl

@[simp] theorem next16_nil : next16 [] = .error .truncated [] := rfl

@[simp] theorem next16_single (b : Byte) : next16 [b] = .error .truncated [b] := rfl

end Sys2Proof
end

