-- ==== Sys2Proof/Laws/Memory.lean ====
section
/-! SUPPORT. The memory as data: every operation keeps the canonical form, a read after a write gives what was
written there and what was there elsewhere, and equal contents are equal data. -/

namespace Sys2Proof.Machine

@[simp] theorem Memory.byteAt_nil (a : Nat) : Memory.byteAt [] a = unlistedByte := rfl

/-- A memory in canonical form: its first byte, its later addresses, and the rest. -/
theorem Memory.wf_cons {k : Nat} {b : Byte} {rest : Memory} :
    Memory.wf ((k, b) :: rest) = true ↔
      b ≠ unlistedByte ∧ (∀ c ∈ rest, k < c.1) ∧ Memory.wf rest = true := by
  simp [Memory.wf, and_assoc]

/-- An address below every listed one is not listed. -/
theorem Memory.byteAt_of_lt {m : Memory} {a : Nat} (h : ∀ c ∈ m, a < c.1) :
    m.byteAt a = unlistedByte := by
  induction m with
  | nil => rfl
  | cons c rest ih =>
    have hc : a < c.1 := h c (by simp)
    simp only [Memory.byteAt, if_neg (by omega : ¬ c.1 = a)]
    exact ih fun d hd => h d (by simp [hd])

/-- A write lists no address but its own and those listed before. -/
theorem Memory.mem_setByte {m : Memory} {a : Nat} {v : Byte} {c : Host.Cell} (h : c ∈ m.setByte a v) :
    c ∈ m ∨ c = (a, v) := by
  induction m with
  | nil =>
    simp only [Memory.setByte] at h
    split at h <;> simp_all
  | cons d rest ih =>
    simp only [Memory.setByte] at h
    split_ifs at h <;> simp only [List.mem_cons] at h ⊢ <;> grind

/-- A write keeps the canonical form. -/
theorem Memory.wf_setByte {m : Memory} (h : m.wf = true) (a : Nat) (v : Byte) :
    (m.setByte a v).wf = true := by
  induction m with
  | nil =>
    simp only [Memory.setByte]
    split_ifs with hv
    · rfl
    · simp [Memory.wf, hv]
  | cons d rest ih =>
    obtain ⟨k, b⟩ := d
    obtain ⟨hb, hk, hr⟩ := Memory.wf_cons.1 h
    simp only [Memory.setByte]
    split_ifs with h1 h2 h3 h4
    · exact h
    · refine Memory.wf_cons.2 ⟨h2, ?_, h⟩
      simp only [List.mem_cons]
      rintro c (rfl | hc)
      · exact h1
      · exact h1.trans (hk c hc)
    · exact hr
    · exact Memory.wf_cons.2 ⟨h4, by subst h3; exact hk, hr⟩
    · refine Memory.wf_cons.2 ⟨hb, fun c hc => ?_, ih hr⟩
      obtain hc | rfl := Memory.mem_setByte hc
      · exact hk c hc
      · simp only; omega

/-- A read after a write: the written byte at its address, what was there everywhere else. -/
theorem Memory.byteAt_setByte {m : Memory} (h : m.wf = true) (a x : Nat) (v : Byte) :
    (m.setByte a v).byteAt x = if x = a then v else m.byteAt x := by
  induction m with
  | nil =>
    simp only [Memory.setByte]
    split_ifs <;> simp only [Memory.byteAt] <;> grind
  | cons d rest ih =>
    obtain ⟨k, b⟩ := d
    obtain ⟨hb, hk, hr⟩ := Memory.wf_cons.1 h
    have hrest : ∀ y, y ≤ k → Memory.byteAt rest y = unlistedByte := fun y hy =>
      Memory.byteAt_of_lt fun c hc => lt_of_le_of_lt hy (hk c hc)
    simp only [Memory.setByte]
    have ih := ih hr
    split_ifs <;> grind [Memory.byteAt]

/-- Writing bytes one after another keeps the canonical form. -/
theorem Memory.wf_setBytes {m : Memory} (h : m.wf = true) (a : Nat) (bs : List Byte) :
    (m.setBytes a bs).wf = true := by
  induction bs generalizing m a with
  | nil => exact h
  | cons b rest ih => exact ih (Memory.wf_setByte h a b) (a + 1)

/-- A read after writing bytes one after another. -/
theorem Memory.byteAt_setBytes {m : Memory} (h : m.wf = true) (a x : Nat) (bs : List Byte) :
    (m.setBytes a bs).byteAt x =
      if a ≤ x ∧ x < a + bs.length then bs.getD (x - a) unlistedByte else m.byteAt x := by
  induction bs generalizing m a with
  | nil => simp [Memory.setBytes]
  | cons b rest ih =>
    rw [Memory.setBytes, ih (Memory.wf_setByte h a b), Memory.byteAt_setByte h]
    simp only [List.length_cons]
    by_cases hx : x = a
    · subst hx; simp
    · by_cases hr : a + 1 ≤ x ∧ x < a + 1 + rest.length
      · obtain ⟨k, rfl⟩ : ∃ k, x = a + 1 + k := ⟨x - (a + 1), by omega⟩
        rw [if_pos hr, if_pos (by omega), show a + 1 + k - a = k + 1 by omega]
        simp
      · rw [if_neg hr, if_neg hx, if_neg (by omega)]

/-- Writing an address that exists lists only addresses that exist. -/
theorem Memory.within_setByte {m : Memory} {size a : Nat} (h : m.within size = true) (ha : a < size)
    (v : Byte) : (m.setByte a v).within size = true := by
  simp only [Memory.within, List.all_eq_true, decide_eq_true_eq] at *
  intro c hc
  obtain hc | rfl := Memory.mem_setByte hc
  · exact h c hc
  · exact ha

/-- Writing bytes at addresses that exist lists only addresses that exist. -/
theorem Memory.within_setBytes {m : Memory} {size a : Nat} {bs : List Byte} (h : m.within size = true)
    (ha : a + bs.length ≤ size) : (m.setBytes a bs).within size = true := by
  induction bs generalizing m a with
  | nil => exact h
  | cons b rest ih =>
    simp only [List.length_cons] at ha
    exact ih (Memory.within_setByte h (by omega) b) (by omega)

/-- Two memories in canonical form that read the same everywhere are equal data. -/
theorem Memory.eq_of_byteAt {m n : Memory} (hm : m.wf = true) (hn : n.wf = true)
    (h : ∀ a, m.byteAt a = n.byteAt a) : m = n := by
  induction m generalizing n with
  | nil =>
    match n with
    | [] => rfl
    | (k, b) :: rest =>
      have := h k
      simp [Memory.byteAt] at this
      exact absurd this.symm (Memory.wf_cons.1 hn).1
  | cons c rest ih =>
    obtain ⟨k, b⟩ := c
    obtain ⟨hb, hk, hr⟩ := Memory.wf_cons.1 hm
    match n with
    | [] =>
      have := h k
      simp [Memory.byteAt] at this
      exact absurd this hb
    | (k', b') :: rest' =>
      obtain ⟨hb', hk', hr'⟩ := Memory.wf_cons.1 hn
      have below : ∀ y, y ≤ k → Memory.byteAt rest y = unlistedByte := fun y hy =>
        Memory.byteAt_of_lt fun c hc => lt_of_le_of_lt hy (hk c hc)
      have below' : ∀ y, y ≤ k' → Memory.byteAt rest' y = unlistedByte := fun y hy =>
        Memory.byteAt_of_lt fun c hc => lt_of_le_of_lt hy (hk' c hc)
      have e1 := h k
      have e2 := h k'
      simp only [Memory.byteAt, if_true] at e1 e2
      have hkk : k = k' := by
        by_contra hne
        rw [if_neg (Ne.symm hne)] at e1
        rw [if_neg hne] at e2
        rcases lt_or_gt_of_ne hne with hlt | hgt
        · exact hb (e1.trans (below' k hlt.le))
        · exact hb' (e2.symm.trans (below k' hgt.le))
      subst hkk
      rw [if_pos rfl] at e1
      subst e1
      congr 1
      refine ih hr hr' fun a => ?_
      by_cases ha : a ≤ k
      · rw [below a ha, below' a ha]
      · have := h a
        simpa [Memory.byteAt, show ¬ k = a by omega] using this

/-! ### The same, for the bytes of a state -/

/-- A byte after a 16-bit store. -/
theorem storeWord_byteAt {s : State} (h : s.mem.wf = true) (a x : Nat) (w : Word) :
    (s.storeWord a w).byteAt x =
      if x = a + 1 then secondByte w else if x = a then firstByte w else s.byteAt x := by
  simp only [State.byteAt, State.storeWord, Memory.byteAt_setByte (Memory.wf_setByte h a _),
    Memory.byteAt_setByte h]

/-- A byte after a byte store. -/
theorem storeByte_byteAt {s : State} (h : s.mem.wf = true) (a x : Nat) (b : Byte) :
    (s.storeByte a b).byteAt x = if x = a then b else s.byteAt x := by
  simp only [State.byteAt, State.storeByte, Memory.byteAt_setByte h]

/-- The value of a word is its first byte times 256 plus its second (R43). -/
theorem joinWord_toNat (b0 b1 : Byte) : (joinWord b0 b1).toNat = b0.toNat * 256 + b1.toNat := by
  unfold joinWord
  rw [BitVec.toNat_append, ← Nat.shiftLeft_add_eq_or_of_lt b1.isLt, Nat.shiftLeft_eq]

theorem firstByte_toNat (w : Word) : (firstByte w).toNat = w.toNat / 256 := by
  have := w.isLt
  simp only [firstByte, BitVec.extractLsb'_toNat, Nat.shiftRight_eq_div_pow]
  omega

theorem secondByte_toNat (w : Word) : (secondByte w).toNat = w.toNat % 256 := by
  simp [secondByte, BitVec.extractLsb'_toNat]

/-- The two bytes of a word, joined, are the word. -/
@[simp] theorem joinWord_bytes (w : Word) : joinWord (firstByte w) (secondByte w) = w := by
  apply BitVec.eq_of_toNat_eq
  rw [joinWord_toNat, firstByte_toNat, secondByte_toNat]
  omega

@[simp] theorem firstByte_joinWord (b0 b1 : Byte) : firstByte (joinWord b0 b1) = b0 := by
  apply BitVec.eq_of_toNat_eq
  have := b1.isLt
  rw [firstByte_toNat, joinWord_toNat]
  omega

@[simp] theorem secondByte_joinWord (b0 b1 : Byte) : secondByte (joinWord b0 b1) = b1 := by
  apply BitVec.eq_of_toNat_eq
  have := b1.isLt
  rw [secondByte_toNat, joinWord_toNat]
  omega

/-- Reading back a stored word. -/
theorem storeWord_wordAt {s : State} (h : s.mem.wf = true) (a : Nat) (w : Word) :
    (s.storeWord a w).wordAt a = w := by
  simp [State.wordAt, storeWord_byteAt h]

end Sys2Proof.Machine
end

