-- ==== Sys2Proof/Laws/State.lean ====
section
/-! SUPPORT. What each update of the state leaves in each field, so that no later proof unfolds a record
update or the register file. -/

namespace Sys2Proof.Machine

section Registers
variable (s : State) (i j : Slot) (v : Word)

@[simp] theorem setReg_cfg : (s.setReg i v).cfg = s.cfg := rfl
@[simp] theorem setReg_mem : (s.setReg i v).mem = s.mem := rfl
@[simp] theorem setReg_fault : (s.setReg i v).fault = s.fault := rfl
@[simp] theorem setReg_byteAt (a : Nat) : (s.setReg i v).byteAt a = s.byteAt a := rfl
@[simp] theorem setReg_wordAt (a : Nat) : (s.setReg i v).wordAt a = s.wordAt a := rfl
@[simp] theorem setReg_inBounds (a n : Nat) : (s.setReg i v).inBounds a n = s.inBounds a n := rfl

/-- Reading a slot after writing one. -/
@[simp] theorem reg_setReg : (s.setReg i v).reg j = if i = j then v else s.reg j := by
  simp [State.reg, State.setReg, Vector.get_eq_getElem, Vector.getElem_set, Fin.ext_iff]

/-- The later of two writes of one slot stays. -/
@[simp] theorem setReg_setReg_same (w : Word) : (s.setReg i v).setReg i w = s.setReg i w := by
  simp [State.setReg]

/-- Writing back what a slot holds changes nothing. -/
@[simp] theorem setReg_reg_self : s.setReg i (s.reg i) = s := by
  simp [State.setReg, State.reg, Vector.get_eq_getElem]

/-- Two register files that read the same in every slot are the same. -/
theorem regs_ext {s t : State} (h : ∀ i, s.reg i = t.reg i) : s.regs = t.regs := by
  apply Vector.ext
  intro i hi
  simpa [State.reg, Vector.get_eq_getElem] using h ⟨i, hi⟩

end Registers

@[simp] theorem accSlot_ne_ipSlot : ¬ accSlot = ipSlot := by decide
@[simp] theorem r2Slot_ne_ipSlot : ¬ r2Slot = ipSlot := by decide
@[simp] theorem r2Slot_ne_accSlot : ¬ r2Slot = accSlot := by decide

section MemoryUpdates
variable (s : State) (a : Nat) (w : Word) (b : Byte) (i : Slot)

@[simp] theorem storeWord_cfg : (s.storeWord a w).cfg = s.cfg := rfl
@[simp] theorem storeWord_regs : (s.storeWord a w).regs = s.regs := rfl
@[simp] theorem storeWord_fault : (s.storeWord a w).fault = s.fault := rfl
@[simp] theorem storeWord_reg : (s.storeWord a w).reg i = s.reg i := rfl
@[simp] theorem storeWord_mem :
    (s.storeWord a w).mem = (s.mem.setByte a (firstByte w)).setByte (a + 1) (secondByte w) := rfl
@[simp] theorem storeByte_cfg : (s.storeByte a b).cfg = s.cfg := rfl
@[simp] theorem storeByte_regs : (s.storeByte a b).regs = s.regs := rfl
@[simp] theorem storeByte_fault : (s.storeByte a b).fault = s.fault := rfl
@[simp] theorem storeByte_reg : (s.storeByte a b).reg i = s.reg i := rfl
@[simp] theorem storeByte_mem : (s.storeByte a b).mem = s.mem.setByte a b := rfl

end MemoryUpdates

section Latch
variable (s : State) (f : Fault) (i : Slot)

@[simp] theorem latchFault_cfg : (latchFault f s).cfg = s.cfg := rfl
@[simp] theorem latchFault_regs : (latchFault f s).regs = s.regs := rfl
@[simp] theorem latchFault_mem : (latchFault f s).mem = s.mem := rfl
@[simp] theorem latchFault_fault : (latchFault f s).fault = some f := rfl
@[simp] theorem latchFault_reg : (latchFault f s).reg i = s.reg i := rfl
@[simp] theorem latchFault_byteAt (a : Nat) : (latchFault f s).byteAt a = s.byteAt a := rfl

end Latch

section Construction
variable (c : Config) (i : Slot)

@[simp] theorem constructed_cfg : (State.constructed c).cfg = c := rfl
@[simp] theorem constructed_mem : (State.constructed c).mem = [] := rfl
@[simp] theorem constructed_fault : (State.constructed c).fault = none := rfl
@[simp] theorem constructed_reg : (State.constructed c).reg i = initialRegister := by
  simp [State.reg, State.constructed, Vector.get_eq_getElem]

end Construction

section Advance
variable (s : State) (k : Nat) (i : Slot)

@[simp] theorem advanced_cfg : (s.advanced k).cfg = s.cfg := rfl
@[simp] theorem advanced_mem : (s.advanced k).mem = s.mem := rfl
@[simp] theorem advanced_fault : (s.advanced k).fault = s.fault := rfl
@[simp] theorem advanced_byteAt (a : Nat) : (s.advanced k).byteAt a = s.byteAt a := rfl
@[simp] theorem advanced_wordAt (a : Nat) : (s.advanced k).wordAt a = s.wordAt a := rfl

/-- The fall-through address in slot 0, every other slot as it was. -/
@[simp] theorem advanced_reg :
    (s.advanced k).reg i = if ipSlot = i then s.ip + BitVec.ofNat 16 k else s.reg i := by
  simp [State.advanced]

/-- Before any byte is fetched nothing has changed. -/
@[simp] theorem advanced_zero : s.advanced 0 = s := by
  simp [State.advanced]

/-- A write of slot 0 replaces the fall-through address. -/
@[simp] theorem setReg_advanced_ip (v : Word) : (s.advanced k).setReg ipSlot v = s.setReg ipSlot v := by
  simp [State.advanced]

end Advance

/-- Two states with the same parameters, registers, memory and latch are the same. -/
theorem State.eq_of_fields {s t : State} (hc : s.cfg = t.cfg) (hr : ∀ i, s.reg i = t.reg i)
    (hm : s.mem = t.mem) (hf : s.fault = t.fault) : s = t := by
  have hregs := regs_ext hr
  cases s; cases t; simp_all

end Sys2Proof.Machine
end

