-- ==== Sys2Proof/Laws/Ops.lean ====
section
/-! SUPPORT. One lemma for each sub-operation, saying all it can do, and the two lemmas that take a sequence of
them apart. -/

namespace Sys2Proof.Machine

/-! ### Sequences -/

theorem act_bind {α β : Type} (m : Act α) (f : α → Act β) (s : State) :
    (m >>= f) s = match m s with
      | .ok a t => f a t
      | .error e t => .error e t := by
  rcases h : m s <;> simp [bind, EStateM.bind, h]

theorem act_pure {α : Type} (a : α) (s : State) : (pure a : Act α) s = .ok a s := rfl

/-- A sequence that ends well: its first part did, and the rest went on from there. -/
theorem act_bind_ok {α β : Type} {m : Act α} {f : α → Act β} {s t : State} {b : β}
    (h : (m >>= f) s = .ok b t) : ∃ a u, m s = .ok a u ∧ f a u = .ok b t := by
  rw [act_bind] at h
  split at h
  · exact ⟨_, _, ‹_›, h⟩
  · cases h

/-- A sequence that raises: its first part did, or the rest did from where that left the state. -/
theorem act_bind_error {α β : Type} {m : Act α} {f : α → Act β} {s t : State} {e : Fault}
    (h : (m >>= f) s = .error e t) :
    m s = .error e t ∨ ∃ a u, m s = .ok a u ∧ f a u = .error e t := by
  rw [act_bind] at h
  split at h
  · exact .inr ⟨_, _, ‹_›, h⟩
  · cases h
    exact .inl ‹_›

/-! ### Sub-operations -/

theorem readReg_eq (i : Slot) (s : State) : readReg i s = .ok (s.reg i) s := rfl

theorem writeReg_eq (i : Slot) (v : Word) (s : State) : writeReg i v s = .ok () (s.setReg i v) := rfl

theorem memRead8_ok {s : State} {a : Nat} (k : AccessKind) (h : s.inBounds a 1) :
    memRead8 k a s = .ok (s.byteAt a) s := if_neg (by simp only [State.inBounds] at h; omega)

theorem memRead8_error {s : State} {a : Nat} (k : AccessKind) (h : ¬ s.inBounds a 1) :
    memRead8 k a s = .error (memFault a 1 k) s := if_pos (by simp only [State.inBounds] at h; omega)

theorem memRead16_ok {s : State} {a : Nat} (k : AccessKind) (h : s.inBounds a 2) :
    memRead16 k a s = .ok (s.wordAt a) s := if_neg (by simp only [State.inBounds] at h; omega)

theorem memRead16_error {s : State} {a : Nat} (k : AccessKind) (h : ¬ s.inBounds a 2) :
    memRead16 k a s = .error (memFault a 2 k) s := if_pos (by simp only [State.inBounds] at h; omega)

theorem memWrite16_ok {s : State} {a : Nat} (v : Word) (h : s.inBounds a 2) :
    memWrite16 a v s = .ok () (s.storeWord a v) := if_neg (by simp only [State.inBounds] at h; omega)

theorem memWrite16_error {s : State} {a : Nat} (v : Word) (h : ¬ s.inBounds a 2) :
    memWrite16 a v s = .error (memFault a 2 .write) s := if_pos (by simp only [State.inBounds] at h; omega)

theorem memWrite8_ok {s : State} {a : Nat} (v : Byte) (h : s.inBounds a 1) :
    memWrite8 a v s = .ok () (s.storeByte a v) := if_neg (by simp only [State.inBounds] at h; omega)

theorem memWrite8_error {s : State} {a : Nat} (v : Byte) (h : ¬ s.inBounds a 1) :
    memWrite8 a v s = .error (memFault a 1 .write) s := if_pos (by simp only [State.inBounds] at h; omega)

theorem regReadChecked_ok {k : Byte} (h : k.toNat < 10) (s : State) :
    regReadChecked k s = .ok (s.reg ⟨k.toNat, h⟩) s := by
  rw [regReadChecked, dif_pos h, readReg_eq]

theorem regReadChecked_error {k : Byte} (h : ¬ k.toNat < 10) (s : State) :
    regReadChecked k s = .error (regFault k) s := by
  rw [regReadChecked, dif_neg h]; rfl

theorem slot_val (b : Byte) : (slot b).val = b.toNat % 10 := rfl

/-! ### The end of a sequence -/

theorem runAct_ok {m : Act Unit} {s t : State} (h : m s = .ok () t) : runAct m s = .next t := by
  simp [runAct, h]

theorem runAct_error {m : Act Unit} {s t : State} {f : Fault} (h : m s = .error f t) :
    runAct m s = .next (latchFault f t) := by
  simp [runAct, h]

/-- A sequence ends the step in a next state, whether it raised or not. -/
theorem runAct_next (m : Act Unit) (s : State) : ∃ t, runAct m s = .next t := by
  unfold runAct
  split <;> exact ⟨_, rfl⟩

end Sys2Proof.Machine
end

