-- ==== Sys2Proof/Laws/Exec.lean ====
section
/-! SUPPORT. The state each instruction leaves, one lemma for each way it can end. -/

namespace Sys2Proof.Machine

variable (s : State)

theorem exec_movLitReg (lit : Word) (b : Byte) :
    exec (.movLitReg lit b) s = .next (s.setReg (slot b) lit) := rfl

theorem exec_movRegReg (bf bt : Byte) :
    exec (.movRegReg bf bt) s = .next (s.setReg (slot bt) (s.reg (slot bf))) := rfl

theorem exec_movRegMem_ok {bf : Byte} {a : Word} (h : s.inBounds (byteAddress a) 2) :
    exec (.movRegMem bf a) s = .next (s.storeWord (byteAddress a) (s.reg (slot bf))) :=
  runAct_ok (by rw [act_bind, readReg_eq]; exact memWrite16_ok _ h)

theorem exec_movRegMem_fault {bf : Byte} {a : Word} (h : ¬ s.inBounds (byteAddress a) 2) :
    exec (.movRegMem bf a) s = .next (latchFault (memFault (byteAddress a) 2 .write) s) :=
  runAct_error (by rw [act_bind, readReg_eq]; exact memWrite16_error _ h)

theorem exec_movMemReg_ok {a : Word} {bt : Byte} (h : s.inBounds (byteAddress a) 2) :
    exec (.movMemReg a bt) s = .next (s.setReg (slot bt) (s.wordAt (byteAddress a))) :=
  runAct_ok (by rw [act_bind, memRead16_ok _ h]; rfl)

theorem exec_movMemReg_fault {a : Word} {bt : Byte} (h : ¬ s.inBounds (byteAddress a) 2) :
    exec (.movMemReg a bt) s = .next (latchFault (memFault (byteAddress a) 2 .read) s) :=
  runAct_error (by rw [act_bind, memRead16_error _ h])

theorem exec_movLitR2 (lit : Word) : exec (.movLitR2 lit) s = .next (s.setReg r2Slot lit) := rfl

theorem exec_addRegReg_ok {k1 k2 : Byte} (h1 : k1.toNat < 10) (h2 : k2.toNat < 10) :
    exec (.addRegReg k1 k2) s =
      .next (s.setReg accSlot (s.reg ⟨k1.toNat, h1⟩ + s.reg ⟨k2.toNat, h2⟩)) :=
  runAct_ok (by
    rw [act_bind, regReadChecked_ok h1]; simp only
    rw [act_bind, regReadChecked_ok h2]; rfl)

theorem exec_addRegReg_fault_first {k1 k2 : Byte} (h1 : ¬ k1.toNat < 10) :
    exec (.addRegReg k1 k2) s = .next (latchFault (regFault k1) s) :=
  runAct_error (by rw [act_bind, regReadChecked_error h1])

theorem exec_addRegReg_fault_second {k1 k2 : Byte} (h1 : k1.toNat < 10) (h2 : ¬ k2.toNat < 10) :
    exec (.addRegReg k1 k2) s = .next (latchFault (regFault k2) s) :=
  runAct_error (by
    rw [act_bind, regReadChecked_ok h1]; simp only
    rw [act_bind, regReadChecked_error h2])

theorem exec_jmpNotEq_taken {v a : Word} (h : v ≠ s.reg accSlot) :
    exec (.jmpNotEq v a) s = .next (s.setReg ipSlot a) :=
  runAct_ok (by rw [act_bind, readReg_eq]; simp [notEqual, h, writeReg_eq])

theorem exec_jmpNotEq_not_taken {v a : Word} (h : v = s.reg accSlot) :
    exec (.jmpNotEq v a) s = .next s :=
  runAct_ok (by rw [act_bind, readReg_eq]; simp [notEqual, h, act_pure])

/-- What an instruction can do once its operands are fetched: write one slot, store one word that is in
bounds, change nothing (a jump not taken), or latch a fault it raised. -/
theorem exec_cases {i : Instr} {t : State} (h : exec i s = .next t) :
    (∃ j v, t = s.setReg j v) ∨
    (∃ bf a, i = .movRegMem bf a ∧ s.inBounds (byteAddress a) 2 ∧
      t = s.storeWord (byteAddress a) (s.reg (slot bf))) ∨
    t = s ∨
    ∃ info, t = latchFault (.outOfBounds info) s := by
  cases i with
  | movLitReg lit b => cases h; exact .inl ⟨_, _, rfl⟩
  | movRegReg bf bt => cases h; exact .inl ⟨_, _, rfl⟩
  | movRegMem bf a =>
    by_cases hb : s.inBounds (byteAddress a) 2
    · rw [exec_movRegMem_ok s hb] at h; cases h
      exact .inr (.inl ⟨bf, a, rfl, hb, rfl⟩)
    · rw [exec_movRegMem_fault s hb] at h; cases h
      exact .inr (.inr (.inr ⟨_, rfl⟩))
  | movMemReg a bt =>
    by_cases hb : s.inBounds (byteAddress a) 2
    · rw [exec_movMemReg_ok s hb] at h; cases h; exact .inl ⟨_, _, rfl⟩
    · rw [exec_movMemReg_fault s hb] at h; cases h
      exact .inr (.inr (.inr ⟨_, rfl⟩))
  | movLitR2 lit => cases h; exact .inl ⟨_, _, rfl⟩
  | addRegReg k1 k2 =>
    by_cases h1 : k1.toNat < 10
    · by_cases h2 : k2.toNat < 10
      · rw [exec_addRegReg_ok s h1 h2] at h; cases h; exact .inl ⟨_, _, rfl⟩
      · rw [exec_addRegReg_fault_second s h1 h2] at h; cases h
        exact .inr (.inr (.inr ⟨_, rfl⟩))
    · rw [exec_addRegReg_fault_first s h1] at h; cases h
      exact .inr (.inr (.inr ⟨_, rfl⟩))
  | jmpNotEq v a =>
    by_cases hv : v = s.reg accSlot
    · rw [exec_jmpNotEq_not_taken s hv] at h; cases h; exact .inr (.inr (.inl rfl))
    · rw [exec_jmpNotEq_taken s hv] at h; cases h; exact .inl ⟨_, _, rfl⟩

/-- Once its operands are fetched every instruction ends in a next state. -/
theorem exec_next (i : Instr) : ∃ t, exec i s = .next t := by
  cases i <;>
    simp only [exec, execMovLitReg, execMovRegReg, execMovRegMem, execMovMemReg, execMovLitR2,
      execAddRegReg, execJmpNotEq] <;>
    exact runAct_next _ _

/-- An instruction leaves the latch as it was or latches an OutOfBounds fault. -/
theorem exec_fault {i : Instr} {s t : State} (h : exec i s = .next t) :
    t.fault = s.fault ∨ ∃ info, t.fault = some (.outOfBounds info) := by
  rcases exec_cases s h with ⟨j, v, rfl⟩ | ⟨bf, a, -, -, rfl⟩ | rfl | ⟨info, rfl⟩ <;> simp

/-- No instruction changes the parameters. -/
theorem exec_cfg {i : Instr} {s t : State} (h : exec i s = .next t) : t.cfg = s.cfg := by
  rcases exec_cases s h with ⟨j, v, rfl⟩ | ⟨bf, a, -, -, rfl⟩ | rfl | ⟨info, rfl⟩ <;> rfl

end Sys2Proof.Machine
end

