-- ==== Sys2Proof/Laws/Step.lean ====
section
/-! SUPPORT. Fetching field by field from the instruction at IP, and the ways one step can end. -/

namespace Sys2Proof.Machine

variable (s : State)

/-- After k bytes and then n more. -/
theorem setIp_advanced (k n : Nat) :
    (s.advanced k).setIp ((s.advanced k).ip + BitVec.ofNat 16 n) = s.advanced (k + n) := by
  simp [State.advanced, BitVec.ofNat_add, BitVec.add_assoc]

theorem codeAddr_eq_ip_toNat (k : Nat) : (s.advanced k).ip.toNat = s.codeAddr k := by
  simp [State.codeAddr]

/-! ### Fetching one field -/

theorem fetch8_ok {k : Nat} (h : s.fieldFits k 1) :
    fetch8 (s.advanced k) = .ok (s.codeByte k) (s.advanced (k + 1)) := by
  have hr : memRead8 .fetch (s.codeAddr k) (s.advanced k) = .ok (s.codeByte k) (s.advanced k) :=
    memRead8_ok _ h
  rw [fetch8, act_bind, readReg_eq]; simp only
  rw [show (s.advanced k).reg ipSlot = (s.advanced k).ip from rfl, codeAddr_eq_ip_toNat, act_bind, hr]
  simp only
  rw [act_bind, writeReg_eq, ← setIp_advanced]
  rfl

theorem fetch8_error {k : Nat} (h : ¬ s.fieldFits k 1) :
    fetch8 (s.advanced k) = .error (memFault (s.codeAddr k) 1 .fetch) (s.advanced k) := by
  have hr : memRead8 .fetch (s.codeAddr k) (s.advanced k) =
      .error (memFault (s.codeAddr k) 1 .fetch) (s.advanced k) := memRead8_error _ h
  rw [fetch8, act_bind, readReg_eq]; simp only
  rw [show (s.advanced k).reg ipSlot = (s.advanced k).ip from rfl, codeAddr_eq_ip_toNat, act_bind, hr]

theorem fetch16_ok {k : Nat} (h : s.fieldFits k 2) :
    fetch16 (s.advanced k) = .ok (s.codeWord k) (s.advanced (k + 2)) := by
  have hr : memRead16 .fetch (s.codeAddr k) (s.advanced k) = .ok (s.codeWord k) (s.advanced k) :=
    memRead16_ok _ h
  rw [fetch16, act_bind, readReg_eq]; simp only
  rw [show (s.advanced k).reg ipSlot = (s.advanced k).ip from rfl, codeAddr_eq_ip_toNat, act_bind, hr]
  simp only
  rw [act_bind, writeReg_eq, ← setIp_advanced]
  rfl

theorem fetch16_error {k : Nat} (h : ¬ s.fieldFits k 2) :
    fetch16 (s.advanced k) = .error (memFault (s.codeAddr k) 2 .fetch) (s.advanced k) := by
  have hr : memRead16 .fetch (s.codeAddr k) (s.advanced k) =
      .error (memFault (s.codeAddr k) 2 .fetch) (s.advanced k) := memRead16_error _ h
  rw [fetch16, act_bind, readReg_eq]; simp only
  rw [show (s.advanced k).reg ipSlot = (s.advanced k).ip from rfl, codeAddr_eq_ip_toNat, act_bind, hr]

/-- `Fetch8()`, both ways it can end. -/
theorem fetch8_eq : fetch8 s =
    if s.inBounds s.ip.toNat 1 then .ok (s.byteAt s.ip.toNat) (s.advanced 1)
    else .error (memFault s.ip.toNat 1 .fetch) s := by
  have h1 := @fetch8_ok s 0
  have h2 := @fetch8_error s 0
  simp only [advanced_zero, State.codeByte, State.codeAddr, BitVec.add_zero,
    Nat.zero_add, State.fieldFits] at h1 h2
  split_ifs with h
  · exact h1 h
  · exact h2 h

/-- `Fetch16()`, both ways it can end. -/
theorem fetch16_eq : fetch16 s =
    if s.inBounds s.ip.toNat 2 then .ok (s.wordAt s.ip.toNat) (s.advanced 2)
    else .error (memFault s.ip.toNat 2 .fetch) s := by
  have h1 := @fetch16_ok s 0
  have h2 := @fetch16_error s 0
  simp only [advanced_zero, State.codeWord, State.codeAddr, BitVec.add_zero,
    Nat.zero_add, State.fieldFits] at h1 h2
  split_ifs with h
  · exact h1 h
  · exact h2 h

/-! ### Fetching an instruction -/

/-- The opcode byte does not exist. -/
theorem fetchInstr_opcode_error (h : ¬ s.fieldFits 0 1) :
    fetchInstr s = .error (memFault (s.codeAddr 0) 1 .fetch) s := by
  have hf := fetch8_error s h
  rw [advanced_zero] at hf
  rw [fetchInstr, decodeWith, act_bind, hf]

/-- The opcode byte is unassigned. -/
theorem fetchInstr_unassigned (h : s.fieldFits 0 1) (hk : opcodeOf s.cfg.opcode (s.codeByte 0) = none) :
    fetchInstr s = .ok (.unassigned (s.codeByte 0)) (s.advanced 1) := by
  have hf := fetch8_ok s h
  rw [advanced_zero] at hf
  rw [fetchInstr, decodeWith, act_bind, hf]
  simp only [hk]
  rfl

/-- The opcode byte names an instruction, whose operands are then fetched. -/
theorem fetchInstr_operands {k : Opcode} (h : s.fieldFits 0 1)
    (hk : opcodeOf s.cfg.opcode (s.codeByte 0) = some k) :
    fetchInstr s =
      (do let i ← decodeOperands fetch8 fetch16 k; pure (.instr i) : Act Decoded) (s.advanced 1) := by
  have hf := fetch8_ok s h
  rw [advanced_zero] at hf
  rw [fetchInstr, decodeWith, act_bind, hf]
  simp only [hk]

@[simp] theorem codeInstr_opcode (k : Opcode) : (s.codeInstr k).opcode = k := by cases k <;> rfl

/-- Every operand field is in bounds: the instruction at IP is fetched, and IP is past it. -/
theorem decodeOperands_ok {k : Opcode} (h : s.fieldsFit 1 (operandWidths k) = true) :
    decodeOperands fetch8 fetch16 k (s.advanced 1) = .ok (s.codeInstr k) (s.advanced (instrLength k)) := by
  cases k <;> simp [operandWidths, State.fieldsFit] at h <;>
    simp [decodeOperands, -bind_pure_comp, act_bind, fetch16_ok, fetch8_ok, act_pure, h, State.codeInstr, instrLength]

/-- Some operand field is out of bounds: the first that is raises the fault, at the address it was to be
fetched from, and IP stays there. -/
theorem decodeOperands_error {k : Opcode} {pre post : List Nat} {n : Nat}
    (hw : operandWidths k = pre ++ n :: post) (hpre : s.fieldsFit 1 pre = true)
    (hn : ¬ s.fieldFits (1 + pre.sum) n) :
    decodeOperands fetch8 fetch16 k (s.advanced 1) =
      .error (memFault (s.codeAddr (1 + pre.sum)) n .fetch) (s.advanced (1 + pre.sum)) := by
  match pre with
  | [] =>
    cases k <;> simp [operandWidths] at hw <;> obtain ⟨rfl, -⟩ := hw <;>
      simp at hn <;> simp [decodeOperands, -bind_pure_comp, act_bind, fetch16_error, fetch8_error, hn]
  | [m] =>
    cases k <;> simp [operandWidths] at hw <;> obtain ⟨rfl, rfl, -⟩ := hw <;>
      simp [State.fieldsFit] at hpre <;> simp at hn <;>
      simp [decodeOperands, -bind_pure_comp, act_bind, fetch16_ok, fetch8_ok, fetch16_error, fetch8_error, hpre, hn]
  | m :: m' :: rest =>
    exfalso
    have := congrArg List.length hw
    cases k <;> simp [operandWidths] at this

/-- Either every field fits or there is a first that does not. -/
theorem fieldsFit_or_first (k : Nat) (ws : List Nat) :
    s.fieldsFit k ws = true ∨
      ∃ pre n post, ws = pre ++ n :: post ∧ s.fieldsFit k pre = true ∧ ¬ s.fieldFits (k + pre.sum) n := by
  induction ws generalizing k with
  | nil => exact .inl rfl
  | cons w rest ih =>
    by_cases hw : s.fieldFits k w
    · rcases ih (k + w) with h | ⟨pre, n, post, rfl, hp, hn⟩
      · exact .inl (by simp only [State.fieldsFit, h, Bool.and_true]; exact decide_eq_true hw)
      · refine .inr ⟨w :: pre, n, post, rfl, ?_, by simpa [Nat.add_assoc] using hn⟩
        simp only [State.fieldsFit, hp, Bool.and_true]; exact decide_eq_true hw
    · exact .inr ⟨[], w, rest, rfl, rfl, by simpa using hw⟩

/-- A 16-bit field that is in bounds has its second byte at the next wrapped address. -/
theorem codeWord_eq_join {k : Nat} (hsize : s.cfg.memSize ≤ 65536) (h : s.fieldFits k 2) :
    s.codeWord k = joinWord (s.codeByte k) (s.codeByte (k + 1)) := by
  have hk : s.codeAddr (k + 1) = s.codeAddr k + 1 := by
    simp only [State.fieldFits, State.inBounds, State.codeAddr, BitVec.toNat_add,
      BitVec.toNat_ofNat] at *
    omega
  simp [State.codeWord, State.wordAt, State.codeByte, hk]

/-- What the decoder reads from the bytes at IP is the instruction whose fields lie there. -/
theorem decode_codeBytes {i : Instr} {rest : List Byte} (hwf : s.cfg.wf = true)
    (hd : decode s.cfg.opcode (s.codeBytes maxInstrLength) = .ok (i, rest))
    (hf : s.fieldsFit 0 (1 :: operandWidths i.opcode) = true) :
    ∃ k, opcodeOf s.cfg.opcode (s.codeByte 0) = some k ∧ i = s.codeInstr k := by
  have hsize : s.cfg.memSize ≤ 65536 := by
    simp only [Config.wf, Config.memSizeOk, Bool.and_eq_true, decide_eq_true_eq] at hwf
    exact hwf.1.2
  have hb : s.codeBytes maxInstrLength =
      [s.codeByte 0, s.codeByte 1, s.codeByte 2, s.codeByte 3, s.codeByte 4] := rfl
  rw [hb] at hd
  rcases hk : opcodeOf s.cfg.opcode (s.codeByte 0) with _ | k
  · simp [decode, decodeWith, parser_bind, hk, parser_pure] at hd
  · refine ⟨k, rfl, ?_⟩
    have w1 := codeWord_eq_join s (k := 1) hsize
    have w2 := codeWord_eq_join s (k := 2) hsize
    have w3 := codeWord_eq_join s (k := 3) hsize
    simp only [decode, decodeWith, parser_bind, next8_cons, hk] at hd
    cases k <;> simp [decodeOperands, parser_bind, parser_pure, -bind_pure_comp] at hd <;>
      obtain ⟨rfl, -⟩ := hd <;>
      simp only [Instr.opcode, operandWidths, State.fieldsFit, Bool.and_eq_true, decide_eq_true_eq,
        Nat.zero_add, Nat.reduceAdd, Bool.and_true] at hf <;>
      simp only [State.codeInstr, w1, w2, w3, hf]

/-! ### One step -/

theorem step_latched {f : Fault} (h : s.fault = some f) : step s = .fault f := by
  simp [step, runStep, h]

theorem step_opcode_fault (hf : s.fault = none) (h : ¬ s.fieldFits 0 1) :
    step s = .next (latchFault (memFault (s.codeAddr 0) 1 .fetch) s) := by
  simp [step, runStep, hf, fetchInstr_opcode_error s h]

theorem step_unassigned (hf : s.fault = none) (h : s.fieldFits 0 1)
    (hk : opcodeOf s.cfg.opcode (s.codeByte 0) = none) :
    step s = runAct (unknownOp (s.codeByte 0)) (s.advanced 1) := by
  simp [step, runStep, hf, fetchInstr_unassigned s h hk]

theorem step_exec {k : Opcode} (hf : s.fault = none) (h : s.fieldFits 0 1)
    (hk : opcodeOf s.cfg.opcode (s.codeByte 0) = some k)
    (hw : s.fieldsFit 1 (operandWidths k) = true) :
    step s = exec (s.codeInstr k) (s.advanced (instrLength k)) := by
  simp [step, runStep, hf, fetchInstr_operands s h hk, act_bind, decodeOperands_ok s hw, act_pure]

theorem step_operand_fault {k : Opcode} {pre post : List Nat} {n : Nat} (hf : s.fault = none)
    (h : s.fieldFits 0 1) (hk : opcodeOf s.cfg.opcode (s.codeByte 0) = some k)
    (hw : operandWidths k = pre ++ n :: post) (hpre : s.fieldsFit 1 pre = true)
    (hn : ¬ s.fieldFits (1 + pre.sum) n) :
    step s = .next (latchFault (memFault (s.codeAddr (1 + pre.sum)) n .fetch)
      (s.advanced (1 + pre.sum))) := by
  simp [step, runStep, hf, fetchInstr_operands s h hk, act_bind, decodeOperands_error s hw hpre hn]

/-- UnknownOp, in both modes. -/
theorem unknownOp_step (op : Byte) :
    runAct (unknownOp op) (s.advanced 1) =
      .next (if s.cfg.strictUnknownOpcode then latchFault (.unknownOpcode op s.ip) (s.advanced 1)
        else s.advanced 1) := by
  have hip : (s.advanced 1).ip - 1 = s.ip := by simp
  unfold runAct unknownOp
  rw [advanced_cfg, hip]
  split_ifs <;> rfl

/-- All a step can do: answer the latched fault, latch a fetch fault at the field that is out of bounds, run
off an unassigned byte, or perform the instruction at IP from the state past it. -/
theorem step_cases :
    (∃ f, s.fault = some f ∧ step s = .fault f) ∨
    (s.fault = none ∧ ¬ s.fieldFits 0 1 ∧
      step s = .next (latchFault (memFault (s.codeAddr 0) 1 .fetch) s)) ∨
    (s.fault = none ∧ s.fieldFits 0 1 ∧ opcodeOf s.cfg.opcode (s.codeByte 0) = none ∧
      step s = .next (if s.cfg.strictUnknownOpcode
        then latchFault (.unknownOpcode (s.codeByte 0) s.ip) (s.advanced 1) else s.advanced 1)) ∨
    (∃ k pre n post, s.fault = none ∧ s.fieldFits 0 1 ∧
      opcodeOf s.cfg.opcode (s.codeByte 0) = some k ∧ operandWidths k = pre ++ n :: post ∧
      s.fieldsFit 1 pre = true ∧ ¬ s.fieldFits (1 + pre.sum) n ∧
      step s = .next (latchFault (memFault (s.codeAddr (1 + pre.sum)) n .fetch)
        (s.advanced (1 + pre.sum)))) ∨
    (∃ k, s.fault = none ∧ s.fieldFits 0 1 ∧ opcodeOf s.cfg.opcode (s.codeByte 0) = some k ∧
      s.fieldsFit 1 (operandWidths k) = true ∧
      step s = exec (s.codeInstr k) (s.advanced (instrLength k))) := by
  rcases hf : s.fault with _ | f
  · right
    by_cases h : s.fieldFits 0 1
    · right
      rcases hk : opcodeOf s.cfg.opcode (s.codeByte 0) with _ | k
      · exact .inl ⟨rfl, h, rfl, by rw [step_unassigned s hf h hk, unknownOp_step]⟩
      · right
        rcases fieldsFit_or_first s 1 (operandWidths k) with hw | ⟨pre, n, post, hw, hp, hn⟩
        · exact .inr ⟨k, rfl, h, rfl, hw, step_exec s hf h hk hw⟩
        · exact .inl ⟨k, pre, n, post, rfl, h, rfl, hw, hp, hn,
            step_operand_fault s hf h hk hw hp hn⟩
    · exact .inl ⟨rfl, h, step_opcode_fault s hf h⟩
  · exact .inl ⟨f, rfl, step_latched s hf⟩

end Sys2Proof.Machine
end

