-- ==== Sys2Proof/Laws/Host.lean ====
section
/-! SUPPORT. The host port: names and slots, what one call can do, and the invariant and a run taken apart. -/

namespace Sys2Proof.Machine

/-- A name has no slot exactly when it is none of the ten. -/
theorem slotOfName_eq_none_iff (name : String) : slotOfName name = none ↔ name ∉ registerNames := by
  unfold slotOfName
  split_ifs <;> simp_all [registerNames]

/-- The i-th name is the name of slot i. -/
theorem slotOfName_of_name {i : Slot} {name : String} (h : registerNames[i.val]? = some name) :
    slotOfName name = some i := by
  fin_cases i <;> simp [registerNames] at h <;> subst h <;> decide

/-- The value of an integer as a 16-bit word (R145). -/
theorem ofInt16_toNat (v : Int) : ((BitVec.ofInt 16 v).toNat : Int) = v % 65536 := by
  rw [BitVec.toNat_ofInt]; simp; omega

/-- What a call other than `step` can do: it keeps the parameters and the latch, it keeps a memory in canonical
form within its size, and an error leaves the state as it was. -/
theorem hostCall_cases {op : HostOp} (s : State) (hop : op ≠ .step) :
    (hostCall op s).1.cfg = s.cfg ∧ (hostCall op s).1.fault = s.fault ∧
    (s.mem.wf = true → s.mem.within s.cfg.memSize = true →
      (hostCall op s).1.mem.wf = true ∧ (hostCall op s).1.mem.within s.cfg.memSize = true) ∧
    ∀ f, (hostCall op s).2 = .error f → (hostCall op s).1 = s := by
  cases op with
  | step => exact absurd rfl hop
  | load bs a =>
    simp only [hostCall, replyOf, load]
    split_ifs with h <;> simp +contextual
    exact fun h1 h2 => ⟨Memory.wf_setBytes h1 _ _, Memory.within_setBytes h2 (by omega)⟩
  | getRegister name =>
    simp only [hostCall, replyOf, getRegister]
    rcases slotOfName name with _ | i <;> simp +contextual [raise, readReg]
  | setRegister name v =>
    simp only [hostCall, replyOf, setRegister]
    rcases slotOfName name with _ | i <;> simp +contextual [raise, writeReg]
  | readMemory8 a => simp only [hostCall, replyOf, readMemory8, memRead8]; split_ifs <;> simp +contextual
  | readMemory16 a =>
    simp only [hostCall, replyOf, readMemory16, memRead16]; split_ifs <;> simp +contextual
  | writeU8 a v =>
    simp only [hostCall, replyOf, writeU8, memWrite8]
    split_ifs <;> simp +contextual
    exact fun h1 h2 => ⟨Memory.wf_setByte h1 _ _, Memory.within_setByte h2 (by omega) _⟩
  | writeU16 a v =>
    simp only [hostCall, replyOf, writeU16, memWrite16]
    split_ifs <;> simp +contextual
    exact fun h1 h2 => ⟨Memory.wf_setByte (Memory.wf_setByte h1 _ _) _ _,
      Memory.within_setByte (Memory.within_setByte h2 (by omega) _) (by omega) _⟩
  | debug => simp +contextual [hostCall, replyOf, debugView]
  | viewMemoryAt a => simp only [hostCall, replyOf, viewMemoryAt]; split_ifs <;> simp +contextual

/-- The parts of the invariant. -/
theorem inv_iff (s : State) :
    s.inv = true ↔ s.cfg.wf = true ∧ s.mem.wf = true ∧ s.mem.within s.cfg.memSize = true ∧
      ∀ f, s.fault = some f → latchable s.cfg f = true := by
  simp [State.inv, and_assoc, Option.all_eq_true]

/-- A run of one more step that answers a next state. -/
theorem run_succ_next {s t : State} (k : Nat) (h : step s = .next t) :
    core.run (k + 1) s = core.run k t := by
  have hc : core.step s = .next t := h
  simp only [Host.Core.run, hc]

end Sys2Proof.Machine
end

