-- ==== Sys2Proof/Laws/PerInstr.lean ====
section
/-! SUPPORT. Facts about every instruction as syntax, one lemma for each constructor. -/

/-- The encoding of an instruction has the length its opcode fixes, and starts with its opcode byte (R60,
R68). -/
def Sys2Proof.Laws.EncodedShape.Statement (i : Sys2Proof.Instr) : Prop :=
  ∀ oc : Sys2Proof.OpcodeMap,
    (Sys2Proof.encode oc i).length = Sys2Proof.instrLength i.opcode ∧
    (Sys2Proof.encode oc i).head? = some (Sys2Proof.opcodeByte oc i.opcode)

namespace Sys2Proof.Laws.EncodedShape

theorem movLitReg (lit : Word) (reg : Byte) : Statement (.movLitReg lit reg) := fun _ => ⟨rfl, rfl⟩
theorem movRegReg (regFrom regTo : Byte) : Statement (.movRegReg regFrom regTo) := fun _ => ⟨rfl, rfl⟩
theorem movRegMem (regFrom : Byte) (addr : Word) : Statement (.movRegMem regFrom addr) :=
  fun _ => ⟨rfl, rfl⟩
theorem movMemReg (addr : Word) (regTo : Byte) : Statement (.movMemReg addr regTo) :=
  fun _ => ⟨rfl, rfl⟩
theorem movLitR2 (lit : Word) : Statement (.movLitR2 lit) := fun _ => ⟨rfl, rfl⟩
theorem addRegReg (reg1 reg2 : Byte) : Statement (.addRegReg reg1 reg2) := fun _ => ⟨rfl, rfl⟩
theorem jmpNotEq (value addr : Word) : Statement (.jmpNotEq value addr) := fun _ => ⟨rfl, rfl⟩

end Sys2Proof.Laws.EncodedShape
end

