-- ==== Sys2Proof/Tests/Slice0.lean ====
section
/-! SUPPORT. Tests of one step or one operation, their expected results taken from the vectors of
95_test_vectors.md (named in each comment) or from the formats of 30_encoding.md R62, and a witness for the
hypotheses of every statement that has some. -/

namespace Sys2Proof.Tests

open Sys2Proof.Machine

/-! ## Helpers -/

/-- A machine with these parameters, IP, and bytes at IP (not running past 0xFFFF). -/
def mk (c : Config) (ip : Word) (bytes : List Byte) : State :=
  { (State.constructed c).setIp ip with mem := Memory.setBytes [] ip.toNat bytes }

/-- The default machine, so. -/
def dflt (ip : Word) (bytes : List Byte) : State := mk defaultConfig ip bytes

/-- The default machine with another memory size. -/
def sized (n : Nat) (ip : Word) (bytes : List Byte) : State :=
  mk { defaultConfig with memSize := n } ip bytes

/-- The default machine in strict mode. -/
def strict (ip : Word) (bytes : List Byte) : State :=
  mk { defaultConfig with strictUnknownOpcode := true } ip bytes

/-- The state after one step, or the state itself when the step answers none. -/
def after (s : State) : State :=
  match step s with
  | .next t => t
  | .fault _ => s
  | .refused _ => s

/-- The state an instruction leaves. -/
def afterExec (i : Instr) (s : State) : State :=
  match exec i s with
  | .next t => t
  | .fault _ => s
  | .refused _ => s

/-- The value and the state of a sub-operation that did not raise. -/
def okOf {α : Type} (r : EStateM.Result Fault State α) : Option (α × State) :=
  match r with
  | .ok a t => some (a, t)
  | .error _ _ => none

/-- The fault and the state of a sub-operation that raised. -/
def errOf {α : Type} (r : EStateM.Result Fault State α) : Option (Fault × State) :=
  match r with
  | .ok _ _ => none
  | .error f t => some (f, t)

/-! ## Parameters: an ill-formed term for each check -/

theorem test_wf_refuses_size_0 : ({ defaultConfig with memSize := 0 } : Config).wf = false := by decide
theorem test_wf_refuses_size_65537 : ({ defaultConfig with memSize := 65537 } : Config).wf = false := by
  decide
theorem test_wf_refuses_one_byte_for_two_mnemonics :
    ({ defaultConfig with opcode := { defaultOpcodeMap with movLitR2 := 0x10 } } : Config).wf = false := by
  decide
theorem test_wf_accepts_default : defaultConfig.wf = true := by decide
theorem test_wf_accepts_size_1 : ({ defaultConfig with memSize := 1 } : Config).wf = true := by decide

/-! ## Decoding: words written out from R62 with the default opcode bytes -/

/-- LR: 10 12 34 02 (the example of R101). -/
theorem test_decode_movLitReg :
    decode defaultOpcodeMap [0x10, 0x12, 0x34, 0x02] = .ok (.movLitReg 0x1234 2, []) := by decide
/-- RR: 11 02 05 (the example of R102). -/
theorem test_decode_movRegReg :
    decode defaultOpcodeMap [0x11, 0x02, 0x05] = .ok (.movRegReg 2 5, []) := by decide
/-- RA: 12 01 01 00 (the example of R103). -/
theorem test_decode_movRegMem :
    decode defaultOpcodeMap [0x12, 0x01, 0x01, 0x00] = .ok (.movRegMem 1 0x0100, []) := by decide
/-- AR: 13 01 00 03 (the example of R104). -/
theorem test_decode_movMemReg :
    decode defaultOpcodeMap [0x13, 0x01, 0x00, 0x03] = .ok (.movMemReg 0x0100 3, []) := by decide
/-- L: 16 00 2A (the example of R105), with bytes after it. -/
theorem test_decode_movLitR2 :
    decode defaultOpcodeMap [0x16, 0x00, 0x2A, 0xFF] = .ok (.movLitR2 0x002A, [0xFF]) := by decide
/-- RR: 14 02 03 (the example of R120). -/
theorem test_decode_addRegReg :
    decode defaultOpcodeMap [0x14, 0x02, 0x03] = .ok (.addRegReg 2 3, []) := by decide
/-- VA: 15 00 06 12 34 (the example of R130). -/
theorem test_decode_jmpNotEq :
    decode defaultOpcodeMap [0x15, 0x00, 0x06, 0x12, 0x34] = .ok (.jmpNotEq 6 0x1234, []) := by decide
/-- The encoder writes the same bytes. -/
theorem test_encode_jmpNotEq :
    encode defaultOpcodeMap (.jmpNotEq 6 0x1234) = [0x15, 0x00, 0x06, 0x12, 0x34] := by decide
/-- Format OP (R65): 0xFF is no instruction of the table. -/
theorem test_decode_unassigned :
    decode defaultOpcodeMap [0xFF] = .error (.unassignedOpcode 0xFF) := by decide
theorem test_decode_truncated : decode defaultOpcodeMap [0x10, 0x12] = .error .truncated := by decide
/-- JMP addr is `10 addr_hi addr_lo 00` (R70). -/
theorem test_pseudo_jmp : encode defaultOpcodeMap (pseudoJmp 0x0040) = [0x10, 0x00, 0x40, 0x00] := by decide
/-- NOP is the byte 00, a no-op (R70, V-U2). -/
theorem test_pseudo_nop : after (dflt 0 pseudoNop) = (dflt 0 pseudoNop).setIp 1 := by decide
/-- Table words: bit 0 is bit 0 of the first byte, so the first byte is the opcode. -/
theorem test_tableWord_jmpNotEq : decodeTableWord 40 0x3412060015 = some (.jmpNotEq 6 0x1234) := by decide
theorem test_tableWord_short : decodeTableWord 8 0x10 = some (.movLitReg 0 0) := by decide
theorem test_tableWord_unassigned : decodeTableWord 8 0x17 = none := by decide

/-! ## A placed word runs as the first instruction after reset -/

theorem test_fetchWord_movLitReg :
    let t := after (State.reset.withFetchWord 32 0x0C34_1210)
    t.reg 2 = 0x1234 ∧ t.ip = 4 ∧ t.fault = none := by decide
theorem test_fetchWord_jmpNotEq :
    let t := after (State.reset.withFetchWord 40 0x3412060015)
    t.ip = 0x1234 ∧ t.fault = none := by decide

/-! ## One step (95_test_vectors.md) -/

/-- V-ML5: index 255 names slot 5. -/
theorem test_movLitReg_index_255 :
    let t := after (dflt 0 [0x10, 0xFF, 0xFF, 0xFF])
    t.reg 5 = 0xFFFF ∧ t.ip = 4 := by decide
/-- V-ML4: index 10 names slot 0, a jump. -/
theorem test_movLitReg_jump : (after (dflt 0 [0x10, 0x00, 0x40, 0x0A])).ip = 0x0040 := by decide
/-- V-MR2: slot 0 is read after both fetches. -/
theorem test_movRegReg_reads_ip :
    let t := after (dflt 0x20 [0x11, 0x00, 0x04])
    t.reg 4 = 0x0023 ∧ t.ip = 0x0023 := by decide
/-- V-MR5: 12 and 13 name slots 2 and 3. -/
theorem test_movRegReg_wraps : (after ((dflt 0 [0x11, 0x0C, 0x0D]).setReg 2 7)).reg 3 = 7 := by decide
/-- V-MM5: the store overwrites its own bytes, and its own execution does not change. -/
theorem test_movRegMem_overwrites_itself :
    let t := after ((dflt 0 [0x12, 0x02, 0x00, 0x00]).setReg 2 0xAAAA)
    t.byteAt 0 = 0xAA ∧ t.byteAt 1 = 0xAA ∧ t.ip = 4 := by decide
/-- V-MM2: address 0xFFFF faults, memory is unchanged, IP is past the instruction. -/
theorem test_movRegMem_at_top_faults :
    let s := (dflt 0 [0x12, 0x01, 0xFF, 0xFF]).setReg 1 0xBEEF
    let t := after s
    t.fault = some (.outOfBounds (.mem 0xFFFF 2 .write)) ∧ t.ip = 4 ∧ t.mem = s.mem := by decide
/-- V-LD5: a load of its own first two bytes, high byte first. -/
theorem test_movMemReg_own_bytes : (after (dflt 0 [0x13, 0x00, 0x00, 0x02])).reg 2 = 0x1300 := by decide
/-- V-LD3: address 0xFFFF faults and no register but IP changes. -/
theorem test_movMemReg_at_top_faults :
    let t := after ((dflt 0 [0x13, 0xFF, 0xFF, 0x02]).setReg 2 9)
    t.fault = some (.outOfBounds (.mem 0xFFFF 2 .read)) ∧ t.ip = 4 ∧ t.reg 2 = 9 := by decide
/-- V-L2b: IP wraps to 0. -/
theorem test_movLitR2_wraps_ip :
    let t := after (dflt 0xFFFD [0x16, 0x12, 0x34])
    t.reg 3 = 0x1234 ∧ t.ip = 0 := by decide
/-- V-L2c: the literal straddles the top. -/
theorem test_movLitR2_straddles_top :
    let t := after (dflt 0xFFFE [0x16])
    t.fault = some (.outOfBounds (.mem 0xFFFF 2 .fetch)) ∧ t.ip = 0xFFFF := by decide
/-- V-A1: the sum wraps. -/
theorem test_addRegReg_wraps :
    (after (((dflt 0 [0x14, 0x02, 0x03]).setReg 2 0xFFFF).setReg 3 2)).reg 1 = 1 := by decide
/-- V-A7: both indices are out of range, and the first one is reported. -/
theorem test_addRegReg_reports_first_index :
    let t := after (dflt 0 [0x14, 0x0A, 0x0B])
    t.fault = some (.outOfBounds (.reg 10 20 2 .read)) ∧ t.ip = 3 := by decide
/-- V-J6: equal, and the fall-through address wraps. -/
theorem test_jmpNotEq_falls_through :
    (after (dflt 0xFFFB [0x15, 0x00, 0x00, 0x12, 0x34])).ip = 0 := by decide
/-- V-J8: a target past the end of memory is no fault. -/
theorem test_jmpNotEq_past_memory :
    let t := after (sized 0x100 0 [0x15, 0x00, 0x01, 0x02, 0x00])
    t.ip = 0x0200 ∧ t.fault = none := by decide
/-- V-U3: the first byte above the default range. -/
theorem test_unassigned_is_noop :
    after (dflt 0 [0x17]) = (dflt 0 [0x17]).setIp 1 := by decide
/-- V-U4: strict mode. -/
theorem test_unassigned_strict :
    let t := after (strict 0 [0xFF])
    t.fault = some (.unknownOpcode 0xFF 0) ∧ t.ip = 1 := by decide
/-- V-F6: the opcode fetch succeeds and the literal's does not. -/
theorem test_operand_fetch_past_memory :
    let t := after (sized 16 0x000F [0x10])
    t.fault = some (.outOfBounds (.mem 0x0010 2 .fetch)) ∧ t.ip = 0x0010 := by decide
/-- V-U5, V-F7: a latched fault is answered again, with no change. -/
theorem test_latched_fault_answered_again :
    let t := after (strict 0 [0xFF])
    hostStep t = (t, .error (.unknownOpcode 0xFF 0)) := by decide

/-- The codes of R160. -/
theorem test_fault_codes :
    faultCode none = 0 ∧ faultCode (some (memFault 0 1 .fetch)) = 1 ∧
    faultCode (some (.unknownRegister "IP")) = 2 ∧ faultCode (some (.unknownOpcode 0xFF 0)) = 3 := by decide

/-! ## The host port -/

/-- V-H1. -/
theorem test_setRegister_truncates :
    hostCall (.getRegister "accumulator") (hostCall (.setRegister "accumulator" 0x1FFFF) State.reset).1 =
      ((State.reset.setReg 1 0xFFFF), .word 0xFFFF) := by decide
/-- V-H2, V-H3. -/
theorem test_setRegister_unknown :
    hostCall (.setRegister "register9" 1) State.reset =
      (State.reset, .error (.unknownRegister "register9")) := by decide
theorem test_getRegister_alias_unknown :
    hostCall (.getRegister "IP") State.reset = (State.reset, .error (.unknownRegister "IP")) := by decide
/-- V-H4. -/
theorem test_two_bytes_read_as_a_word :
    (hostCall (.readMemory16 0x20)
      (hostRun [.writeU8 0x20 0x12, .writeU8 0x21 0x34] State.reset)).2 = .word 0x1234 := by decide
/-- V-H6: nothing is written. -/
theorem test_load_past_memory :
    hostCall (.load [1, 2, 3] 0xFFFE) State.reset =
      (State.reset, .error (.outOfBounds (.mem 0xFFFE 3 .write))) := by decide
/-- V-H7. -/
theorem test_view_past_memory :
    (hostCall (.viewMemoryAt 0xFFF9) State.reset).2 = .error (.outOfBounds (.mem 0xFFF9 8 .read)) ∧
    (hostCall (.viewMemoryAt 0xFFF8) State.reset).2 = .bytes [0, 0, 0, 0, 0, 0, 0, 0] := by decide
/-- R141: no machine of size 0 or above 65536. -/
theorem test_new_refuses : new 0 = none ∧ new 65537 = none := by decide

/-! ## Witnesses: the hypotheses of each statement that has some, met together -/

theorem witness_DispatchSelectsTheMatchingMnemonic : defaultOpcodeMap.injective = true := by decide

theorem witness_EncodedInstructionDecodesToItself :
    ({ defaultOpcodeMap with movLitReg := 0xFE, movLitR2 := 0x00 } : OpcodeMap).injective = true := by decide

theorem witness_DecodedBytesAreTheEncoding :
    decode defaultOpcodeMap [0x15, 0xFF, 0xFF, 0xFF, 0xFF, 0x00] = .ok (.jmpNotEq 0xFFFF 0xFFFF, [0x00]) := by
  decide

/-- Both ends of the iff, at the empty list, one byte short, and an unassigned byte. -/
theorem witness_DecoderRejectsOnlyUnassignedAndTruncated :
    decode defaultOpcodeMap [] = .error .truncated ∧
    decode defaultOpcodeMap [0x15, 0, 0, 0] = .error .truncated ∧
    opcodeOf defaultOpcodeMap 0x17 = none := by decide

/-- V-F2 and V-F3: the last byte, and the last word, both wrapping IP. -/
theorem witness_FetchAdvancesIpByItsWidth :
    okOf (fetch8 (dflt 0xFFFF [0x5A])) = some (0x5A, (dflt 0xFFFF [0x5A]).setIp 0) ∧
    okOf (fetch16 (dflt 0xFFFE [0x12, 0x34])) = some (0x1234, (dflt 0xFFFE [0x12, 0x34]).setIp 0) ∧
    (dflt 0xFFFF [0x5A]).inBounds 0xFFFF 1 ∧ (dflt 0xFFFE [0x12, 0x34]).inBounds 0xFFFE 2 := by decide

/-- V-F4 and V-F5. -/
theorem witness_FaultingFetchLeavesIp :
    ¬ (sized 16 0x0010 []).inBounds (sized 16 0x0010 []).ip.toNat 1 ∧
    ¬ (dflt 0xFFFF []).inBounds (dflt 0xFFFF []).ip.toNat 2 := by decide

/-- Running past 0xFFFF: the operands of MOV_REG_REG at 0xFFFE lie at 0xFFFF and 0x0000. -/
theorem witness_StepRunsTheDecodedInstruction :
    let s := dflt 0xFFFE [0x11, 0x02]
    s.cfg.wf = true ∧ s.fault = none ∧
    decode s.cfg.opcode (s.codeBytes maxInstrLength) = .ok (.movRegReg 0x02 0x00, [0x00, 0x00]) ∧
    (Instr.movRegReg 0x02 0x00).wf = true ∧
    s.fieldsFit 0 (1 :: operandWidths (Instr.movRegReg 0x02 0x00).opcode) = true := by decide

theorem witness_OpcodeFetchPastMemoryFaults :
    let s := sized 16 0x0010 []
    s.fault = none ∧ s.cfg.memSize ≤ s.ip.toNat := by decide

theorem witness_UnassignedOpcodeIsNoOpOrUnknownOpcode :
    let s := dflt 0xFFFF [0x17]
    let u := strict 0xFFFF [0x17]
    (s.fault = none ∧ s.fieldFits 0 1 ∧ opcodeOf s.cfg.opcode (s.codeByte 0) = none ∧
      s.cfg.strictUnknownOpcode = false) ∧
    (u.fault = none ∧ u.fieldFits 0 1 ∧ opcodeOf u.cfg.opcode (u.codeByte 0) = none ∧
      u.cfg.strictUnknownOpcode = true ∧ (after u).fault = some (.unknownOpcode 0x17 0xFFFF)) := by decide

/-- A faulted state: P4a's fault. -/
def faulted : State := after (dflt 0 [0x14, 0x02, 0x0A])

theorem witness_LatchedFaultStopsTheEngine :
    faulted.fault = some (.outOfBounds (.reg 10 20 2 .read)) := by decide

theorem witness_StepWithNoLatchedFaultAnswersNext : State.reset.fault = none := by decide

theorem witness_HostStepRepliesWithTheRaisedFault :
    State.reset.fault = none ∧ (after State.reset).fault = none ∧
    (dflt 0 [0x14, 0x02, 0x0A]).fault = none ∧ faulted.fault ≠ none := by decide

theorem witness_IpAfterAStepThatDoesNotFault :
    let s := dflt 0 [0x13, 0x00, 0x00, 0x0A]
    s.fault = none ∧ s.fieldFits 0 1 ∧ opcodeOf s.cfg.opcode (s.codeByte 0) = some .movMemReg ∧
    (after s).fault = none ∧ (after s).ip = 0x1300 ∧ ∃ t, step s = .next t ∧ t = after s :=
  ⟨by decide, by decide, by decide, by decide, by decide, _, rfl, rfl⟩

/-- Each case at its boundary: the opcode fetch, an operand fetch, a read and a write at 0xFFFF, index 10. -/
theorem witness_OutOfBoundsRaisedExactlyInTheListedCases :
    (after (sized 16 16 [])).fault = some (.outOfBounds (.mem 16 1 .fetch)) ∧
    (after (dflt 0xFFFE [0x16])).fault = some (.outOfBounds (.mem 0xFFFF 2 .fetch)) ∧
    (after (dflt 0 [0x13, 0xFF, 0xFF, 0x02])).fault = some (.outOfBounds (.mem 0xFFFF 2 .read)) ∧
    (after (dflt 0 [0x12, 0x02, 0xFF, 0xFF])).fault = some (.outOfBounds (.mem 0xFFFF 2 .write)) ∧
    (after (dflt 0 [0x14, 0x09, 0x0A])).fault = some (.outOfBounds (.reg 10 20 2 .read)) ∧
    (after (dflt 0 [0x14, 0x0A, 0xFF])).fault = some (.outOfBounds (.reg 10 20 2 .read)) ∧
    ∃ t, step (dflt 0 [0x14, 0x0A, 0xFF]) = .next t := by
  refine ⟨by decide, by decide, by decide, by decide, by decide, by decide, _, rfl⟩

theorem witness_FullMemoryFaultsOnlyAtTheTopOrOnAnIndex :
    let s := dflt 0xFFFE [0x16]
    s.cfg.memSize = 65536 ∧ s.fault = none ∧
    (after s).fault = some (.outOfBounds (.mem 0xFFFF 2 .fetch)) ∧ ∃ t, step s = .next t ∧ t = after s :=
  ⟨by decide, by decide, by decide, _, rfl, rfl⟩

/-- The three ways MOV_LIT_REG can go, each field at its last or first missing byte. -/
theorem witness_MovLitRegStep :
    let a := sized 2 0 [0x10, 0x12]
    let b := sized 3 0 [0x10, 0x12, 0x34]
    let c := sized 4 0 [0x10, 0x12, 0x34, 0x02]
    (a.cfg.wf = true ∧ a.fault = none ∧ a.fieldFits 0 1 ∧ a.codeByte 0 = a.cfg.opcode.movLitReg ∧
      ¬ a.fieldFits 1 2) ∧
    (b.cfg.wf = true ∧ b.fault = none ∧ b.fieldFits 0 1 ∧ b.codeByte 0 = b.cfg.opcode.movLitReg ∧
      b.fieldFits 1 2 ∧ ¬ b.fieldFits 3 1) ∧
    (c.cfg.wf = true ∧ c.fault = none ∧ c.fieldFits 0 1 ∧ c.codeByte 0 = c.cfg.opcode.movLitReg ∧
      c.fieldFits 1 2 ∧ c.fieldFits 3 1) := by decide

theorem witness_MovRegRegStep :
    let a := sized 1 0 [0x11]
    let b := sized 2 0 [0x11, 0x02]
    let c := sized 3 0 [0x11, 0x02, 0x05]
    (a.cfg.wf = true ∧ a.fault = none ∧ a.fieldFits 0 1 ∧ a.codeByte 0 = a.cfg.opcode.movRegReg ∧
      ¬ a.fieldFits 1 1) ∧
    (b.cfg.wf = true ∧ b.fault = none ∧ b.fieldFits 0 1 ∧ b.codeByte 0 = b.cfg.opcode.movRegReg ∧
      b.fieldFits 1 1 ∧ ¬ b.fieldFits 2 1) ∧
    (c.cfg.wf = true ∧ c.fault = none ∧ c.fieldFits 0 1 ∧ c.codeByte 0 = c.cfg.opcode.movRegReg ∧
      c.fieldFits 1 1 ∧ c.fieldFits 2 1) := by decide

/-- The operand fetches, a store to the last word, and one past it. -/
theorem witness_MovRegMemStep :
    let a := sized 1 0 [0x12]
    let b := sized 3 0 [0x12, 0x02, 0x00]
    let c := sized 4 0 [0x12, 0x02, 0x00, 0x03]
    let d := sized 4 0 [0x12, 0x02, 0x00, 0x02]
    (a.cfg.wf = true ∧ a.mem.wf = true ∧ a.fault = none ∧ a.fieldFits 0 1 ∧
      a.codeByte 0 = a.cfg.opcode.movRegMem ∧ ¬ a.fieldFits 1 1) ∧
    (b.cfg.wf = true ∧ b.mem.wf = true ∧ b.fault = none ∧ b.fieldFits 0 1 ∧
      b.codeByte 0 = b.cfg.opcode.movRegMem ∧ b.fieldFits 1 1 ∧ ¬ b.fieldFits 2 2) ∧
    (c.cfg.wf = true ∧ c.mem.wf = true ∧ c.fault = none ∧ c.fieldFits 0 1 ∧
      c.codeByte 0 = c.cfg.opcode.movRegMem ∧ c.fieldFits 1 1 ∧ c.fieldFits 2 2 ∧
      ¬ c.inBounds (c.codeWord 2).toNat 2) ∧
    (d.cfg.wf = true ∧ d.mem.wf = true ∧ d.fault = none ∧ d.fieldFits 0 1 ∧
      d.codeByte 0 = d.cfg.opcode.movRegMem ∧ d.fieldFits 1 1 ∧ d.fieldFits 2 2 ∧
      d.inBounds (d.codeWord 2).toNat 2) := by decide

theorem witness_MovMemRegStep :
    let a := sized 2 0 [0x13, 0x00]
    let b := sized 3 0 [0x13, 0x00, 0x00]
    let c := sized 4 0 [0x13, 0x00, 0x03, 0x02]
    let d := sized 4 0 [0x13, 0x00, 0x02, 0x02]
    (a.cfg.wf = true ∧ a.fault = none ∧ a.fieldFits 0 1 ∧ a.codeByte 0 = a.cfg.opcode.movMemReg ∧
      ¬ a.fieldFits 1 2) ∧
    (b.cfg.wf = true ∧ b.fault = none ∧ b.fieldFits 0 1 ∧ b.codeByte 0 = b.cfg.opcode.movMemReg ∧
      b.fieldFits 1 2 ∧ ¬ b.fieldFits 3 1) ∧
    (c.cfg.wf = true ∧ c.fault = none ∧ c.fieldFits 0 1 ∧ c.codeByte 0 = c.cfg.opcode.movMemReg ∧
      c.fieldFits 1 2 ∧ c.fieldFits 3 1 ∧ ¬ c.inBounds (c.codeWord 1).toNat 2) ∧
    (d.cfg.wf = true ∧ d.fault = none ∧ d.fieldFits 0 1 ∧ d.codeByte 0 = d.cfg.opcode.movMemReg ∧
      d.fieldFits 1 2 ∧ d.fieldFits 3 1 ∧ d.inBounds (d.codeWord 1).toNat 2) := by decide

theorem witness_MovLitR2Step :
    let a := sized 2 0 [0x16, 0x00]
    let b := sized 3 0 [0x16, 0x00, 0x2A]
    (a.cfg.wf = true ∧ a.fault = none ∧ a.fieldFits 0 1 ∧ a.codeByte 0 = a.cfg.opcode.movLitR2 ∧
      ¬ a.fieldFits 1 2) ∧
    (b.cfg.wf = true ∧ b.fault = none ∧ b.fieldFits 0 1 ∧ b.codeByte 0 = b.cfg.opcode.movLitR2 ∧
      b.fieldFits 1 2) := by decide

/-- The operand fetches, and the indices 9 and 10. -/
theorem witness_AddRegRegStep :
    let a := sized 1 0 [0x14]
    let b := sized 2 0 [0x14, 0x09]
    let c := sized 3 0 [0x14, 0x0A, 0x09]
    let d := sized 3 0 [0x14, 0x09, 0x0A]
    let e := sized 3 0 [0x14, 0x09, 0x09]
    (a.cfg.wf = true ∧ a.fault = none ∧ a.fieldFits 0 1 ∧ a.codeByte 0 = a.cfg.opcode.addRegReg ∧
      ¬ a.fieldFits 1 1) ∧
    (b.cfg.wf = true ∧ b.fault = none ∧ b.fieldFits 0 1 ∧ b.codeByte 0 = b.cfg.opcode.addRegReg ∧
      b.fieldFits 1 1 ∧ ¬ b.fieldFits 2 1) ∧
    (c.cfg.wf = true ∧ c.fault = none ∧ c.fieldFits 0 1 ∧ c.codeByte 0 = c.cfg.opcode.addRegReg ∧
      c.fieldFits 1 1 ∧ c.fieldFits 2 1 ∧ 10 ≤ (c.codeByte 1).toNat) ∧
    (d.cfg.wf = true ∧ d.fault = none ∧ d.fieldFits 0 1 ∧ d.codeByte 0 = d.cfg.opcode.addRegReg ∧
      d.fieldFits 1 1 ∧ d.fieldFits 2 1 ∧ (d.codeByte 1).toNat < 10 ∧ 10 ≤ (d.codeByte 2).toNat) ∧
    (e.cfg.wf = true ∧ e.fault = none ∧ e.fieldFits 0 1 ∧ e.codeByte 0 = e.cfg.opcode.addRegReg ∧
      e.fieldFits 1 1 ∧ e.fieldFits 2 1 ∧ (e.codeByte 1).toNat < 10 ∧ (e.codeByte 2).toNat < 10) := by
  decide

/-- The operand fetches, an operand equal to the accumulator, and one that differs from it in bit 15 alone. -/
theorem witness_JmpNotEqStep :
    let a := sized 2 0 [0x15, 0x00]
    let b := sized 4 0 [0x15, 0x00, 0x00, 0x00]
    let c := sized 5 0 [0x15, 0x80, 0x00, 0x12, 0x34]
    let d := sized 5 0 [0x15, 0x00, 0x00, 0x12, 0x34]
    (a.cfg.wf = true ∧ a.fault = none ∧ a.fieldFits 0 1 ∧ a.codeByte 0 = a.cfg.opcode.jmpNotEq ∧
      ¬ a.fieldFits 1 2) ∧
    (b.cfg.wf = true ∧ b.fault = none ∧ b.fieldFits 0 1 ∧ b.codeByte 0 = b.cfg.opcode.jmpNotEq ∧
      b.fieldFits 1 2 ∧ ¬ b.fieldFits 3 2) ∧
    (c.cfg.wf = true ∧ c.fault = none ∧ c.fieldFits 0 1 ∧ c.codeByte 0 = c.cfg.opcode.jmpNotEq ∧
      c.fieldFits 1 2 ∧ c.fieldFits 3 2 ∧ c.codeWord 1 ≠ c.reg accSlot) ∧
    (d.cfg.wf = true ∧ d.fault = none ∧ d.fieldFits 0 1 ∧ d.codeByte 0 = d.cfg.opcode.jmpNotEq ∧
      d.fieldFits 1 2 ∧ d.fieldFits 3 2 ∧ d.codeWord 1 = d.reg accSlot) := by decide

theorem witness_MovRegRegCompletes : (2 : Slot).val = (0xFC : Byte).toNat % 10 := by decide

theorem witness_MovRegMemCompletes :
    State.reset.mem.wf = true ∧ State.reset.inBounds (byteAddress 0xFFFE) 2 := by decide

theorem witness_MovMemRegCompletes : State.reset.inBounds (byteAddress 0xFFFE) 2 := by decide

theorem witness_AddRegRegSumIsModulo65536 : (0x09 : Byte).toNat < 10 ∧ (0x00 : Byte).toNat < 10 := by decide

theorem witness_LoadOrStorePastMemoryLatchesOutOfBounds :
    ¬ State.reset.inBounds (byteAddress 0xFFFF) 2 := by decide

theorem witness_AddIndexOfTenOrMoreLatchesOutOfBounds :
    10 ≤ (0x0A : Byte).toNat ∧ (0x09 : Byte).toNat < 10 := by decide

theorem witness_InstructionsThatStoreNothingFrame :
    (∃ t, exec (.movMemReg 0xFFFF 2) State.reset = .next t) ∧
    (∃ t, exec (.movLitReg 0x1234 2) State.reset = .next t ∧ t.reg 2 ≠ State.reset.reg 2) ∧
    (Instr.movMemReg 0xFFFF 2).opcode ≠ .movRegMem ∧ (Instr.movLitReg 0x1234 2).opcode ≠ .movRegMem :=
  ⟨⟨_, rfl⟩, ⟨_, rfl, by decide⟩, by decide, by decide⟩

theorem witness_MovRegMemFrame :
    State.reset.mem.wf = true ∧ (∃ t, exec (.movRegMem 2 0xFFFE) State.reset = .next t) ∧
    ∃ t, exec (.movRegMem 2 0xFFFF) State.reset = .next t := ⟨by decide, ⟨_, rfl⟩, ⟨_, rfl⟩⟩

theorem witness_MovIndexWrapsModuloTen :
    (0xFF : Byte).toNat = (0xF5 : Byte).toNat + 10 ∧ 10 ≤ (0x0A : Byte).toNat ∧
    ∃ t, exec (.addRegReg 0x0A 0x00) State.reset = .next t := ⟨by decide, by decide, _, rfl⟩

theorem witness_OnlyMovRegMemChangesMemory :
    let s := dflt 0 [0x12, 0x00, 0xFF, 0xFE]
    (after s).mem ≠ s.mem ∧ ∃ t, step s = .next t ∧ t = after s := ⟨by decide, _, rfl, rfl⟩

theorem witness_StepWritesOnlyTheTabledSlots :
    let s := dflt 0 [0x16, 0x00, 0x2A]
    (3 : Slot) ≠ ipSlot ∧ (after s).reg 3 ≠ s.reg 3 ∧ ∃ t, step s = .next t ∧ t = after s :=
  ⟨by decide, by decide, _, rfl, rfl⟩

theorem witness_FaultingStepWritesNothingButIp :
    let s := dflt 0 [0x14, 0x02, 0x0A]
    s.fault = none ∧ (after s).fault ≠ none ∧ ∃ t, step s = .next t ∧ t = after s :=
  ⟨by decide, by decide, _, rfl, rfl⟩

theorem witness_UnknownRegisterOnlyAtTheHostPort :
    State.reset.fault = none ∧ (∃ t, step State.reset = .next t) ∧
    "register9" ∉ registerNames ∧ "register8" ∈ registerNames := ⟨by decide, ⟨_, rfl⟩, by decide, by decide⟩

theorem witness_InvariantKeptByEveryStep :
    let s := dflt 0 [0x12, 0x00, 0xFF, 0xFE]
    s.inv = true ∧ (after s).inv = true ∧ ∃ t, step s = .next t ∧ t = after s :=
  ⟨by decide, by decide, _, rfl, rfl⟩

theorem witness_InvariantHoldsAfterConstruction :
    ({ defaultConfig with memSize := 1, strictUnknownOpcode := true } : Config).wf = true := by decide

theorem witness_InvariantHoldsAlongEveryHostRun : State.reset.inv = true ∧ faulted.inv = true := by decide

theorem witness_ParametersAndLatchedFaultStay :
    faulted.fault = some (.outOfBounds (.reg 10 20 2 .read)) := by decide

theorem witness_GoodRunsNeverPassAFault :
    ∃ t, goodRun 1 (dflt 0 [0x16, 0x00, 0x2A]) t := ⟨_, rfl, by decide⟩

theorem witness_StoredBytesAreFetchedNext :
    State.reset.mem.wf = true ∧ State.reset.inBounds (byteAddress 0xFFFE) 2 ∧
    ∃ t, exec (.movRegMem 0 0xFFFE) State.reset = .next t := ⟨by decide, by decide, _, rfl⟩

/-- V-J4. -/
theorem witness_JumpToItselfRunsForever :
    let s := dflt 0 [0x15, 0x00, 0x01, 0x00, 0x00]
    s.cfg.wf = true ∧ s.fault = none ∧ opcodeOf s.cfg.opcode (s.codeByte 0) = some .jmpNotEq ∧
    s.fieldsFit 0 [1, 2, 2] = true ∧ s.codeWord 1 ≠ s.reg accSlot ∧ s.codeWord 3 = s.ip := by decide

/-- The last byte and the last word exist; the next ones do not. -/
theorem witness_AccessFailsExactlyOutOfBounds :
    State.reset.cfg.memSize < 65536 + 1 ∧ State.reset.cfg.memSize < 65535 + 2 ∧
    65535 + 1 ≤ State.reset.cfg.memSize ∧ 65534 + 2 ≤ State.reset.cfg.memSize := by decide

theorem witness_WordWriteIsBigEndian :
    State.reset.mem.wf = true ∧
    okOf (memWrite16 0xFFFE 0xABCD State.reset) = some ((), State.reset.storeWord 0xFFFE 0xABCD) := by decide

theorem witness_NewGivesAZeroedMachineOrNone : 1 ≤ 1 ∧ 65536 ≤ 65536 ∧ 65536 < 65537 := by decide

theorem witness_SetRegisterTruncatesTo16Bits :
    "accumulator " ∉ registerNames ∧ registerNames[(9 : Slot).val]? = some "register8" := by decide

theorem witness_HostWordWriteRoundTrips :
    State.reset.mem.wf = true ∧ 65534 + 2 ≤ State.reset.cfg.memSize := by decide

/-- Three bytes at 0xFFFD fit; at 0xFFFE they do not (V-H6). -/
theorem witness_LoadWritesAllOrNothing :
    State.reset.mem.wf = true ∧ State.reset.cfg.memSize < 0xFFFE + [1, 2, (3 : Byte)].length ∧
    0xFFFD + [1, 2, (3 : Byte)].length ≤ State.reset.cfg.memSize := by decide

theorem witness_HostErrorChangesNothing :
    HostOp.load [1, 2, 3] 0xFFFE ≠ .step ∧
    hostCall (.load [1, 2, 3] 0xFFFE) State.reset =
      (State.reset, .error (.outOfBounds (.mem 0xFFFE 3 .write))) := by decide

theorem witness_HostReadsChangeNothing :
    registerNames[(0 : Slot).val]? = some "instructionPointer" ∧ 65535 + 1 ≤ State.reset.cfg.memSize ∧
    65534 + 2 ≤ State.reset.cfg.memSize ∧ 0xFFF8 + 8 ≤ State.reset.cfg.memSize ∧
    State.reset.cfg.memSize < 0xFFF9 + 8 := by decide

end Sys2Proof.Tests
end

section
/-! PROOFS. The bound of a memory access, for each width and kind (20_memory.md R41). -/

namespace Sys2Proof.Machine

/-- Settles O49: the port's own lemmas on each side of the bound. The sum `a + n` is one of natural numbers, so
`memSize < a + n` is exactly that the access is not in bounds. -/
theorem accessFailsExactlyOutOfBounds : Obligations.AccessFailsExactlyOutOfBounds := by
  unfold Obligations.AccessFailsExactlyOutOfBounds
  intro s a k w b
  refine ⟨fun past => ?byteFails, fun past => ?wordFails, fun fits => ?byteAnswers, fun fits => ?wordAnswers⟩
  case byteFails =>
    have out : ¬ s.inBounds a 1 := Nat.not_le_of_lt past
    exact ⟨memRead8_error k out, memWrite8_error b out⟩
  case wordFails =>
    have out : ¬ s.inBounds a 2 := Nat.not_le_of_lt past
    exact ⟨memRead16_error k out, memWrite16_error w out⟩
  case byteAnswers => exact ⟨⟨s.byteAt a, memRead8_ok k fits⟩, s.storeByte a b, memWrite8_ok b fits⟩
  case wordAnswers => exact ⟨⟨s.wordAt a, memRead16_ok k fits⟩, s.storeWord a w, memWrite16_ok w fits⟩

end Sys2Proof.Machine
end

section
/-! PROOFS. What a fetch that does not fault answers and what it leaves (40_fetch_and_step.md R80, R81, R82). -/

namespace Sys2Proof.Machine

/-- `Fetch8()` answers exactly when its byte exists. -/
theorem fetch8_eq_ok_iff (s t : State) (b : Byte) :
    fetch8 s = .ok b t ↔ s.inBounds s.ip.toNat 1 ∧ s.byteAt s.ip.toNat = b ∧ s.advanced 1 = t := by
  rw [fetch8_eq]
  split <;> simp [*]

/-- `Fetch16()` answers exactly when its two bytes exist. -/
theorem fetch16_eq_ok_iff (s t : State) (w : Word) :
    fetch16 s = .ok w t ↔ s.inBounds s.ip.toNat 2 ∧ s.wordAt s.ip.toNat = w ∧ s.advanced 2 = t := by
  rw [fetch16_eq]
  split <;> simp [*]

/-- IP moves in a 16-bit word, so it wraps (R82, R83). -/
theorem advanced_ip_toNat (s : State) (k : Nat) : (s.advanced k).ip.toNat = (s.ip.toNat + k) % 65536 := by
  rw [codeAddr_eq_ip_toNat, State.codeAddr, BitVec.toNat_add, BitVec.toNat_ofNat, Nat.add_mod_mod]

/-- The frame of advancing IP (R82). -/
theorem advanced_changes_only_ip (s : State) (k : Nat) :
    (∀ j, j ≠ ipSlot → (s.advanced k).reg j = s.reg j) ∧ (s.advanced k).mem = s.mem ∧
      (s.advanced k).fault = s.fault ∧ (s.advanced k).cfg = s.cfg := by
  refine ⟨fun j hj => ?_, advanced_mem s k, advanced_fault s k, advanced_cfg s k⟩
  rw [advanced_reg, if_neg hj.symm]

/-- Settles O8: a fetch that answers leaves `s.advanced` of its width, which is `s` with IP moved on by that
width; and it answers wherever its bytes exist. -/
theorem fetchAdvancesIpByItsWidth : Obligations.FetchAdvancesIpByItsWidth := by
  unfold Obligations.FetchAdvancesIpByItsWidth
  intro s t
  refine ⟨fun b fetched => ?byteFrame, fun w fetched => ?wordFrame, fun fits => ?byteAnswers,
    fun fits => ?wordAnswers⟩
  case byteFrame =>
    obtain ⟨-, -, rfl⟩ := (fetch8_eq_ok_iff s t b).mp fetched
    exact ⟨advanced_ip_toNat s 1, advanced_changes_only_ip s 1⟩
  case wordFrame =>
    obtain ⟨-, -, rfl⟩ := (fetch16_eq_ok_iff s t w).mp fetched
    exact ⟨advanced_ip_toNat s 2, advanced_changes_only_ip s 2⟩
  case byteAnswers => exact ⟨s.advanced 1, (fetch8_eq_ok_iff s _ _).mpr ⟨fits, rfl, rfl⟩⟩
  case wordAnswers => exact ⟨s.advanced 2, (fetch16_eq_ok_iff s _ _).mpr ⟨fits, rfl, rfl⟩⟩

end Sys2Proof.Machine
end

section
/-! PROOFS. One step from an assigned opcode byte in memory: its operand fields, the first of which that is out of
bounds raises the fault (40_fetch_and_step.md R84, R87), and the performance of the instruction past them. -/

namespace Sys2Proof.Machine

/-- The next step dispatches on the mnemonic `k`: the engine is not stopped, and the opcode byte at IP exists and is
the byte of `k` (R84, R85). -/
structure Dispatches (s : State) (k : Opcode) : Prop where
  running : s.fault = none
  opcodeFits : s.fieldFits 0 1
  selected : opcodeOf s.cfg.opcode (s.codeByte 0) = some k

/-- With legal parameters, the byte of a mnemonic at IP selects that mnemonic: OPCODE is injective (R63). -/
theorem dispatches_of_codeByte {s : State} {k : Opcode} (wf : s.cfg.wf = true) (running : s.fault = none)
    (opcodeFits : s.fieldFits 0 1) (byteOfK : s.codeByte 0 = opcodeByte s.cfg.opcode k) : Dispatches s k := by
  refine ⟨running, opcodeFits, ?_⟩
  obtain ⟨-, injective⟩ := Bool.and_eq_true_iff.mp wf
  rw [byteOfK, opcodeOf_opcodeByte injective]

namespace Dispatches
variable {s : State} {k : Opcode} {m n : Nat} {rest : List Nat}

/-- The first operand field is out of bounds: IP is past the opcode byte alone. -/
theorem step_first_field_fault (run : Dispatches s k) (widths : operandWidths k = m :: rest)
    (out : ¬ s.fieldFits 1 m) :
    step s = .next (latchFault (.outOfBounds (.mem (s.codeAddr 1) m .fetch)) (s.advanced 1)) :=
  step_operand_fault s (pre := []) run.running run.opcodeFits run.selected widths rfl out

/-- The second operand field is the first that is out of bounds: IP is past the first one. -/
theorem step_second_field_fault (run : Dispatches s k) (widths : operandWidths k = m :: n :: rest)
    (first : s.fieldFits 1 m) (out : ¬ s.fieldFits (1 + m) n) :
    step s =
      .next (latchFault (.outOfBounds (.mem (s.codeAddr (1 + m)) n .fetch)) (s.advanced (1 + m))) :=
  step_operand_fault s (pre := [m]) run.running run.opcodeFits run.selected widths
    (by simp [State.fieldsFit, first]) out

/-- The one operand field exists: the instruction is performed from the state past it. -/
theorem step_one_field (run : Dispatches s k) (widths : operandWidths k = [m]) (first : s.fieldFits 1 m) :
    step s = exec (s.codeInstr k) (s.advanced (instrLength k)) :=
  step_exec s run.running run.opcodeFits run.selected (by simp [widths, State.fieldsFit, first])

/-- Both operand fields exist: the instruction is performed from the state past them. -/
theorem step_two_fields (run : Dispatches s k) (widths : operandWidths k = [m, n])
    (first : s.fieldFits 1 m) (second : s.fieldFits (1 + m) n) :
    step s = exec (s.codeInstr k) (s.advanced (instrLength k)) :=
  step_exec s run.running run.opcodeFits run.selected (by simp [widths, State.fieldsFit, first, second])

end Dispatches

end Sys2Proof.Machine
end

section
/-! PROOFS. One step of each MOV instruction (41_data_movement.md R101 to R105). In each, the faults of the operand
fetches are those of any instruction with fields of these widths; what is the instruction's own is its `exec` from
the state past its last field. -/

namespace Sys2Proof.Machine

/-- Once k bytes are fetched, slot 0 reads as the address past them (R102, R103). -/
theorem advanced_reg_eq_ite (s : State) (k : Nat) (i : Slot) :
    (s.advanced k).reg i = if i = ipSlot then s.ip + BitVec.ofNat 16 k else s.reg i := by
  simp only [advanced_reg, eq_comm]

/-- A byte after a 16-bit store, the address operand's own byte first (R44). -/
theorem storeWord_byteAt_first {s : State} (canonical : s.mem.wf = true) (a x : Nat) (w : Word) :
    (s.storeWord a w).byteAt x =
      if x = a then firstByte w else if x = a + 1 then secondByte w else s.byteAt x := by
  rw [storeWord_byteAt canonical]
  by_cases own : x = a
  · rw [if_neg (by omega : ¬ x = a + 1), if_pos own, if_pos own]
  · rw [if_neg own, if_neg own]

/-- Settles O19: a literal of 2 bytes and an index of 1; the write cannot fail. -/
theorem movLitRegStep : Obligations.MovLitRegStep := by
  unfold Obligations.MovLitRegStep
  intro s wf running opcodeFits isMov
  have run : Dispatches s .movLitReg := dispatches_of_codeByte wf running opcodeFits isMov
  refine ⟨run.step_first_field_fault rfl, run.step_second_field_fault rfl, fun litFits indexFits => ?_⟩
  exact (run.step_two_fields rfl litFits indexFits).trans (exec_movLitReg _ _ _)

/-- Settles O20: two indices of 1 byte; the source is read in the state past both, where slot 0 holds the
fall-through address. -/
theorem movRegRegStep : Obligations.MovRegRegStep := by
  unfold Obligations.MovRegRegStep
  intro s wf running opcodeFits isMov
  have run : Dispatches s .movRegReg := dispatches_of_codeByte wf running opcodeFits isMov
  refine ⟨run.step_first_field_fault rfl, run.step_second_field_fault rfl, fun fromFits toFits => ?_⟩
  have source : (s.advanced 3).reg (slot (s.codeByte 1)) =
      if slot (s.codeByte 1) = ipSlot then s.ip + 3 else s.reg (slot (s.codeByte 1)) :=
    advanced_reg_eq_ite s 3 _
  rw [← source]
  exact (run.step_two_fields rfl fromFits toFits).trans (exec_movRegReg _ _ _)

/-- Settles O21: an index of 1 byte and an address of 2; the store changes the two bytes at that address, or
faults in the state past the instruction. -/
theorem movRegMemStep : Obligations.MovRegMemStep := by
  unfold Obligations.MovRegMemStep
  intro s wf canonical running opcodeFits isMov
  have run : Dispatches s .movRegMem := dispatches_of_codeByte wf running opcodeFits isMov
  refine ⟨run.step_first_field_fault rfl, run.step_second_field_fault rfl,
    fun fromFits addrFits past => ?storeFaults, fun fromFits addrFits fits => ?stores⟩
  case storeFaults =>
    exact (run.step_two_fields rfl fromFits addrFits).trans (exec_movRegMem_fault (s.advanced 4) past)
  case stores =>
    exact ⟨_, (run.step_two_fields rfl fromFits addrFits).trans (exec_movRegMem_ok (s.advanced 4) fits),
      fun x => storeWord_byteAt_first canonical _ x _, fun j => storeWord_reg _ _ _ j, running, rfl⟩

/-- Settles O22: an address of 2 bytes and an index of 1; the load faults before the register is written. -/
theorem movMemRegStep : Obligations.MovMemRegStep := by
  unfold Obligations.MovMemRegStep
  intro s wf running opcodeFits isMov
  have run : Dispatches s .movMemReg := dispatches_of_codeByte wf running opcodeFits isMov
  refine ⟨run.step_first_field_fault rfl, run.step_second_field_fault rfl,
    fun addrFits toFits past => ?loadFaults, fun addrFits toFits fits => ?loads⟩
  case loadFaults =>
    exact (run.step_two_fields rfl addrFits toFits).trans (exec_movMemReg_fault (s.advanced 4) past)
  case loads =>
    exact (run.step_two_fields rfl addrFits toFits).trans (exec_movMemReg_ok (s.advanced 4) fits)

/-- Settles O23: a literal of 2 bytes is the only field, and the destination is fixed. -/
theorem movLitR2Step : Obligations.MovLitR2Step := by
  unfold Obligations.MovLitR2Step
  intro s wf running opcodeFits isMov
  have run : Dispatches s .movLitR2 := dispatches_of_codeByte wf running opcodeFits isMov
  refine ⟨run.step_first_field_fault rfl, fun litFits => ?_⟩
  exact (run.step_one_field rfl litFits).trans (exec_movLitR2 _ _)

end Sys2Proof.Machine
end

section
/-! PROOFS. One step of the conditional jump (43_control_transfer.md R130). The faults of its operand fetches are
those of any instruction with two fields of these widths; the rest is its comparison, made past them. -/

namespace Sys2Proof.Machine

/-- Fetching moves only IP, so the accumulator that the comparison reads is the one the step began with. -/
theorem advanced_reg_accSlot (s : State) (k : Nat) : (s.advanced k).reg accSlot = s.reg accSlot :=
  (advanced_changes_only_ip s k).1 accSlot accSlot_ne_ipSlot

/-- Settles O25: two fields of 2 bytes; a taken jump replaces the fall-through address by the target, whatever the
target is, and one not taken leaves the state past the instruction. -/
theorem jmpNotEqStep : Obligations.JmpNotEqStep := by
  unfold Obligations.JmpNotEqStep
  intro s wf running opcodeFits isJump
  have run : Dispatches s .jmpNotEq := dispatches_of_codeByte wf running opcodeFits isJump
  refine ⟨run.step_first_field_fault rfl, run.step_second_field_fault rfl,
    fun valueFits addrFits differs => ?taken, fun valueFits addrFits equal => ?fallsThrough⟩
  case taken =>
    rw [← advanced_reg_accSlot s 5] at differs
    calc step s
      _ = exec (s.codeInstr .jmpNotEq) (s.advanced 5) := run.step_two_fields rfl valueFits addrFits
      _ = .next ((s.advanced 5).setReg ipSlot (s.codeWord 3)) := exec_jmpNotEq_taken _ differs
      _ = .next (s.setIp (s.codeWord 3)) := by rw [setReg_advanced_ip]
  case fallsThrough =>
    rw [← advanced_reg_accSlot s 5] at equal
    exact (run.step_two_fields rfl valueFits addrFits).trans (exec_jmpNotEq_not_taken _ equal)

end Sys2Proof.Machine
end

section
/-! PROOFS. The registers by name (44_host_interface.md R144, R145): each call answers by the slot of the name it
is given, and `setRegister` writes the value modulo 2^16 there. -/

namespace Sys2Proof.Machine

/-- `getRegister` on a name with a slot reads that slot. -/
theorem getRegister_of_slot {name : String} {i : Slot} (hasSlot : slotOfName name = some i) (s : State) :
    getRegister name s = .ok (s.reg i) s := by
  rw [getRegister, hasSlot]; exact readReg_eq i s

/-- `setRegister` on a name with a slot writes that slot. -/
theorem setRegister_of_slot {name : String} {i : Slot} (hasSlot : slotOfName name = some i) (v : Int)
    (s : State) : setRegister name v s = .ok () (s.setReg i (BitVec.ofInt 16 v)) := by
  rw [setRegister, hasSlot]; exact writeReg_eq i _ s

/-- `setRegister` on a name without a slot is an error that leaves the state as it was. -/
theorem setRegister_of_no_slot {name : String} (noSlot : slotOfName name = none) (v : Int) (s : State) :
    setRegister name v s = .error (.unknownRegister name) s := by
  rw [setRegister, noSlot]; rfl

/-- Settles O54: a name has no slot exactly when it is none of the ten, and the i-th name has slot i. What a read
of any slot returns after the write is the rule `reg_setReg`. -/
theorem setRegisterTruncatesTo16Bits : Obligations.SetRegisterTruncatesTo16Bits := by
  unfold Obligations.SetRegisterTruncatesTo16Bits
  intro s name v
  refine ⟨fun unknown => setRegister_of_no_slot ((slotOfName_eq_none_iff name).2 unknown) v s,
    fun i isName => ?_⟩
  have hasSlot : slotOfName name = some i := slotOfName_of_name isName
  refine ⟨s.setReg i (BitVec.ofInt 16 v), setRegister_of_slot hasSlot v s, ?truncated,
    getRegister_of_slot hasSlot _, fun j other => ?frame, setReg_mem .., setReg_fault .., setReg_cfg ..⟩
  case truncated => rw [reg_setReg, if_pos rfl, ofInt16_toNat]
  case frame => rw [reg_setReg, if_neg other.symm]

end Sys2Proof.Machine
end

section
/-! PROOFS. The fault a step latches: what it can be, and where each kind comes from (60_exceptions.md R161, R163,
R164). The statements about faults of the machine are read off the one inversion `step_latches`. -/

namespace Sys2Proof.Machine

/-- Where the fault that a running step latches comes from: the opcode fetch, an unassigned opcode byte in strict
mode, the first operand field that is out of bounds, or the instruction itself, which raises only OutOfBounds. -/
theorem step_latches {s t : State} {f : Fault} (running : s.fault = none) (stepped : step s = .next t)
    (latched : t.fault = some f) :
    (¬ s.fieldFits 0 1 ∧ f = memFault (s.codeAddr 0) 1 .fetch) ∨
    (s.fieldFits 0 1 ∧ opcodeOf s.cfg.opcode (s.codeByte 0) = none ∧ s.cfg.strictUnknownOpcode = true ∧
      f = .unknownOpcode (s.codeByte 0) s.ip) ∨
    ∃ k, Dispatches s k ∧
      ((∃ pre n post, operandWidths k = pre ++ n :: post ∧ s.fieldsFit 1 pre = true ∧
          ¬ s.fieldFits (1 + pre.sum) n ∧ f = memFault (s.codeAddr (1 + pre.sum)) n .fetch) ∨
        (s.fieldsFit 1 (operandWidths k) = true ∧
          exec (s.codeInstr k) (s.advanced (instrLength k)) = .next t ∧ ∃ info, f = .outOfBounds info)) := by
  rcases step_cases s with ⟨g, stopped, -⟩ | ⟨-, past, answer⟩ | ⟨-, fits, unassigned, answer⟩ |
    ⟨k, pre, n, post, -, fits, selected, widths, before, out, answer⟩ | ⟨k, -, fits, selected, operands, answer⟩
  · simp [running] at stopped
  · cases stepped.symm.trans answer
    exact .inl ⟨past, by simpa using latched.symm⟩
  · cases stepped.symm.trans answer
    cases strict : s.cfg.strictUnknownOpcode
    · simp [strict, running] at latched
    · exact .inr (.inl ⟨fits, unassigned, rfl, by simpa [strict] using latched.symm⟩)
  · cases stepped.symm.trans answer
    exact .inr (.inr ⟨k, ⟨running, fits, selected⟩,
      .inl ⟨pre, n, post, widths, before, out, by simpa using latched.symm⟩⟩)
  · have performed : exec (s.codeInstr k) (s.advanced (instrLength k)) = .next t := answer.symm.trans stepped
    refine .inr (.inr ⟨k, ⟨running, fits, selected⟩, .inr ⟨operands, performed, ?_⟩⟩)
    rcases exec_fault performed with unchanged | ⟨info, raised⟩
    · simp [latched, running] at unchanged
    · exact ⟨info, Option.some.inj (latched.symm.trans raised)⟩

/-- A step latches no fault but an OutOfBounds or, in strict mode, the UnknownOpcode of the unassigned byte at IP. -/
theorem step_latches_outOfBounds_or_unknownOpcode {s t : State} {f : Fault} (running : s.fault = none)
    (stepped : step s = .next t) (latched : t.fault = some f) :
    (∃ info, f = .outOfBounds info) ∨
    (s.fieldFits 0 1 ∧ opcodeOf s.cfg.opcode (s.codeByte 0) = none ∧ s.cfg.strictUnknownOpcode = true ∧
      f = .unknownOpcode (s.codeByte 0) s.ip) := by
  rcases step_latches running stepped latched with ⟨-, isMem⟩ | unknown |
    ⟨_, -, ⟨_, _, _, -, -, -, isMem⟩ | ⟨-, -, isBounds⟩⟩
  · exact .inl ⟨_, isMem⟩
  · exact .inr unknown
  · exact .inl ⟨_, isMem⟩
  · exact .inl isBounds

/-- Settles O12: the two modes are the two ends of `unknownOp_step`; of the faults a step can latch, only the one of
an unassigned byte in strict mode is an UnknownOpcode. -/
theorem unassignedOpcodeIsNoOpOrUnknownOpcode : Obligations.UnassignedOpcodeIsNoOpOrUnknownOpcode := by
  unfold Obligations.UnassignedOpcodeIsNoOpOrUnknownOpcode
  intro s running
  refine ⟨fun fits unassigned => ?performed, fun t op a stepped latched => ?onlyThere⟩
  case performed =>
    rw [step_unassigned s running fits unassigned, unknownOp_step]
    exact ⟨fun lenient => by simp [lenient], fun strict => by simp [strict]⟩
  case onlyThere =>
    obtain ⟨info, ⟨⟩⟩ | ⟨fits, unassigned, strict, ⟨⟩⟩ :=
      step_latches_outOfBounds_or_unknownOpcode running stepped latched
    exact ⟨strict, fits, unassigned, rfl, rfl⟩

/-! ### UnknownRegister -/

/-- `getRegister` on a name without a slot is an error that leaves the state as it was. -/
theorem getRegister_of_no_slot {name : String} (noSlot : slotOfName name = none) (s : State) :
    getRegister name s = .error (.unknownRegister name) s := by
  rw [getRegister, noSlot]; rfl

/-- Each of the ten names has a slot. -/
theorem exists_slot_of_mem_registerNames {name : String} (known : name ∈ registerNames) :
    ∃ i, slotOfName name = some i :=
  Option.ne_none_iff_exists'.1 fun noSlot => (slotOfName_eq_none_iff name).1 noSlot known

/-- Settles O41: no fault a step can latch is an UnknownRegister; at the host port a name answers by its slot, and
it has none exactly when it is not one of the ten. -/
theorem unknownRegisterOnlyAtTheHostPort : Obligations.UnknownRegisterOnlyAtTheHostPort := by
  unfold Obligations.UnknownRegisterOnlyAtTheHostPort
  refine ⟨fun s t name running stepped latched => ?neverFromAStep,
    fun s name v => ⟨fun unknown => ?unknownName, fun known => ?knownName⟩⟩
  case neverFromAStep =>
    obtain ⟨info, ⟨⟩⟩ | ⟨-, -, -, ⟨⟩⟩ := step_latches_outOfBounds_or_unknownOpcode running stepped latched
  case unknownName =>
    have noSlot := (slotOfName_eq_none_iff name).2 unknown
    exact ⟨getRegister_of_no_slot noSlot s, setRegister_of_no_slot noSlot v s⟩
  case knownName =>
    obtain ⟨i, hasSlot⟩ := exists_slot_of_mem_registerNames known
    exact ⟨_, _, getRegister_of_slot hasSlot s, setRegister_of_slot hasSlot v s⟩

end Sys2Proof.Machine
end

section
/-! PROOFS. OutOfBounds inside a step (60_exceptions.md R161): what each instruction raises once its operands are
fetched, and with the fetch faults the whole table. -/

namespace Sys2Proof.Machine

section Performed
variable {s t : State} {info : OutOfBounds}

/-- The load raises exactly when its two bytes do not both exist (R104). -/
theorem exec_movMemReg_outOfBounds_iff {a : Word} {bt : Byte} (running : s.fault = none)
    (performed : exec (.movMemReg a bt) s = .next t) :
    t.fault = some (.outOfBounds info) ↔
      ¬ s.inBounds (byteAddress a) 2 ∧ info = .mem (byteAddress a) 2 .read := by
  by_cases fits : s.inBounds (byteAddress a) 2
  · rw [exec_movMemReg_ok s fits] at performed
    cases performed
    simp [running, fits]
  · rw [exec_movMemReg_fault s fits] at performed
    cases performed
    simp [memFault, fits, eq_comm]

/-- The store raises exactly when its two bytes do not both exist (R103). -/
theorem exec_movRegMem_outOfBounds_iff {bf : Byte} {a : Word} (running : s.fault = none)
    (performed : exec (.movRegMem bf a) s = .next t) :
    t.fault = some (.outOfBounds info) ↔
      ¬ s.inBounds (byteAddress a) 2 ∧ info = .mem (byteAddress a) 2 .write := by
  by_cases fits : s.inBounds (byteAddress a) 2
  · rw [exec_movRegMem_ok s fits] at performed
    cases performed
    simp [running, fits]
  · rw [exec_movRegMem_fault s fits] at performed
    cases performed
    simp [memFault, fits, eq_comm]

/-- The addition raises exactly when an index names no slot, and reports the first such index (R120). -/
theorem exec_addRegReg_outOfBounds_iff {k1 k2 : Byte} (running : s.fault = none)
    (performed : exec (.addRegReg k1 k2) s = .next t) :
    t.fault = some (.outOfBounds info) ↔
      (10 ≤ k1.toNat ∧ info = .reg k1.toNat (2 * k1.toNat) 2 .read) ∨
      (k1.toNat < 10 ∧ 10 ≤ k2.toNat ∧ info = .reg k2.toNat (2 * k2.toNat) 2 .read) := by
  by_cases first : k1.toNat < 10
  · by_cases second : k2.toNat < 10
    · rw [exec_addRegReg_ok s first second] at performed
      cases performed
      simp [running, first, second]
    · rw [exec_addRegReg_fault_second s first second] at performed
      cases performed
      simp [regFault, first, Nat.not_lt.1 second, eq_comm]
  · rw [exec_addRegReg_fault_first s first] at performed
    cases performed
    simp [regFault, first, Nat.not_lt.1 first, eq_comm]

/-- The jump latches nothing, taken or not (R130, R131). -/
theorem exec_jmpNotEq_fault {v a : Word} (performed : exec (.jmpNotEq v a) s = .next t) :
    t.fault = s.fault := by
  by_cases equal : v = s.reg accSlot
  · rw [exec_jmpNotEq_not_taken s equal] at performed
    cases performed
    rfl
  · rw [exec_jmpNotEq_taken s equal] at performed
    cases performed
    rfl

end Performed

/-- The rows of R161 past the operand fetches: the instruction `k` at IP raises OutOfBounds with this record when it
is performed. -/
def State.performanceRaises (s : State) (k : Opcode) (info : OutOfBounds) : Prop :=
  (k = .movMemReg ∧ s.cfg.memSize < (s.codeWord 1).toNat + 2 ∧ info = .mem (s.codeWord 1).toNat 2 .read) ∨
  (k = .movRegMem ∧ s.cfg.memSize < (s.codeWord 2).toNat + 2 ∧ info = .mem (s.codeWord 2).toNat 2 .write) ∨
  (k = .addRegReg ∧ 10 ≤ (s.codeByte 1).toNat ∧
    info = .reg (s.codeByte 1).toNat (2 * (s.codeByte 1).toNat) 2 .read) ∨
  (k = .addRegReg ∧ (s.codeByte 1).toNat < 10 ∧ 10 ≤ (s.codeByte 2).toNat ∧
    info = .reg (s.codeByte 2).toNat (2 * (s.codeByte 2).toNat) 2 .read)

/-- What the instruction at IP latches, from the state with any number of its bytes fetched: fetching changes
neither the memory size nor the latch. -/
theorem exec_codeInstr_outOfBounds_iff {s t : State} {k : Opcode} {info : OutOfBounds} {n : Nat}
    (running : s.fault = none) (performed : exec (s.codeInstr k) (s.advanced n) = .next t) :
    t.fault = some (.outOfBounds info) ↔ s.performanceRaises k info := by
  have running' : (s.advanced n).fault = none := running
  cases k with
  | movLitReg | movRegReg | movLitR2 =>
    cases performed
    simp [State.performanceRaises, running]
  | jmpNotEq => simp [State.performanceRaises, exec_jmpNotEq_fault performed, running]
  | movRegMem =>
    simpa [State.performanceRaises, byteAddress] using exec_movRegMem_outOfBounds_iff running' performed
  | movMemReg =>
    simpa [State.performanceRaises, byteAddress] using exec_movMemReg_outOfBounds_iff running' performed
  | addRegReg =>
    simpa [State.performanceRaises] using exec_addRegReg_outOfBounds_iff running' performed

/-- The opcode byte lies at IP itself. -/
theorem codeAddr_zero (s : State) : s.codeAddr 0 = s.ip.toNat := by simp [State.codeAddr]

/-- The opcode byte exists exactly when IP is below the end of memory (R41, R84). -/
theorem opcodeFits_iff (s : State) : s.fieldFits 0 1 ↔ s.ip.toNat < s.cfg.memSize := by
  rw [State.fieldFits, codeAddr_zero]; exact Nat.succ_le_iff

/-- Settles O17: every fault a step latches comes from one row of the table (`step_latches`); and in each row the
step is known, so that the state it leaves is the one that holds that row's record. -/
theorem outOfBoundsRaisedExactlyInTheListedCases : Obligations.OutOfBoundsRaisedExactlyInTheListedCases := by
  unfold Obligations.OutOfBoundsRaisedExactlyInTheListedCases
  intro s t info running stepped
  refine ⟨fun latched => ?inTheTable, ?rowsRaise⟩
  case inTheTable =>
    rcases step_latches running stepped latched with ⟨past, isMem⟩ | ⟨-, -, -, isUnknown⟩ |
      ⟨k, run, ⟨pre, n, post, widths, before, out, isMem⟩ | ⟨operands, performed, -⟩⟩
    · cases isMem
      rw [opcodeFits_iff, Nat.not_lt] at past
      exact .inl ⟨past, by rw [codeAddr_zero]⟩
    · cases isUnknown
    · cases isMem
      exact .inr ⟨(opcodeFits_iff s).1 run.opcodeFits, k, run.selected,
        .inl ⟨pre, n, post, widths, before, out, rfl⟩⟩
    · exact .inr ⟨(opcodeFits_iff s).1 run.opcodeFits, k, run.selected,
        .inr ⟨operands, (exec_codeInstr_outOfBounds_iff running performed).1 latched⟩⟩
  case rowsRaise =>
    rintro (⟨past, rfl⟩ | ⟨below, k, selected, ⟨pre, n, post, widths, before, out, rfl⟩ | ⟨operands, raises⟩⟩)
    · rw [step_opcode_fault s running (by rwa [opcodeFits_iff, Nat.not_lt])] at stepped
      cases stepped
      rw [latchFault_fault, codeAddr_zero]; rfl
    · rw [step_operand_fault s running ((opcodeFits_iff s).2 below) selected widths before out] at stepped
      cases stepped
      rfl
    · rw [step_exec s running ((opcodeFits_iff s).2 below) selected operands] at stepped
      exact (exec_codeInstr_outOfBounds_iff running stepped).2 raises

end Sys2Proof.Machine
end

section
/-! PROOFS. The encoding (30_encoding.md). What a parser of bytes reads is written as an equivalence for each
source of bytes and for the operands of an instruction; decode and encode then agree both ways. -/

namespace Sys2Proof

/-! ### What the sources of bytes read -/

theorem next8_eq_ok_iff {bs rest : List Byte} {b : Byte} : next8 bs = .ok b rest ↔ bs = b :: rest := by
  cases bs <;> simp

/-- A 16-bit value is read exactly from its own two bytes (R47). -/
theorem next16_eq_ok_iff {bs rest : List Byte} {w : Word} :
    next16 bs = .ok w rest ↔ bs = wordBytes w ++ rest := by
  rcases bs with _ | ⟨first, _ | ⟨second, others⟩⟩
  · simp [wordBytes]
  · simp [wordBytes]
  · simp only [next16_cons, EStateM.Result.ok.injEq, wordBytes, List.cons_append, List.nil_append,
      List.cons.injEq, ← and_assoc]
    refine and_congr_left' ⟨?_, ?_⟩
    · rintro rfl; simp [Machine.firstByte_joinWord, Machine.secondByte_joinWord]
    · rintro ⟨rfl, rfl⟩; simp [Machine.joinWord_bytes]

theorem parser_bind_eq_ok_iff {α β : Type} {m : ByteParser α} {f : α → ByteParser β} {bs rest : List Byte}
    {b : β} : (m >>= f) bs = .ok b rest ↔ ∃ a left, m bs = .ok a left ∧ f a left = .ok b rest := by
  rw [parser_bind]
  cases m bs <;> simp

theorem parser_pure_eq_ok_iff {α : Type} {a a' : α} {bs rest : List Byte} :
    (pure a : ByteParser α) bs = .ok a' rest ↔ a = a' ∧ bs = rest := by
  simp [parser_pure]

/-! ### The operands of an instruction -/

/-- The operand bytes of an instruction, in fetch order (R61, R62): its encoding without the opcode byte
(`encode_eq_cons`). -/
def operandBytes : Instr → List Byte
  | .movLitReg lit b => wordBytes lit ++ [b]
  | .movRegReg bf bt => [bf, bt]
  | .movRegMem bf a => bf :: wordBytes a
  | .movMemReg a bt => wordBytes a ++ [bt]
  | .movLitR2 lit => wordBytes lit
  | .addRegReg k1 k2 => [k1, k2]
  | .jmpNotEq v a => wordBytes v ++ wordBytes a

theorem encode_eq_cons (oc : OpcodeMap) (i : Instr) :
    encode oc i = opcodeByte oc i.opcode :: operandBytes i := by
  cases i <;> rfl

/-- The operand fetches of a mnemonic read an instruction exactly when it has that mnemonic and the bytes start
with its operand bytes. -/
theorem decodeOperands_eq_ok_iff {k : Opcode} {bs rest : List Byte} {i : Instr} :
    decodeOperands next8 next16 k bs = .ok i rest ↔ i.opcode = k ∧ bs = operandBytes i ++ rest := by
  constructor
  · intro read
    cases k <;>
      simp only [decodeOperands, parser_bind_eq_ok_iff, parser_pure_eq_ok_iff, next8_eq_ok_iff,
        next16_eq_ok_iff] at read <;>
      obtain ⟨_, _, rfl, read⟩ := read
    case movLitR2 =>
      obtain ⟨rfl, rfl⟩ := read
      exact ⟨rfl, rfl⟩
    all_goals
      obtain ⟨_, _, rfl, rfl, rfl⟩ := read
      simp [Instr.opcode, operandBytes]
  · rintro ⟨rfl, rfl⟩
    cases i <;>
      simp [decodeOperands, Instr.opcode, operandBytes, parser_bind_eq_ok_iff, parser_pure_eq_ok_iff,
        next8_eq_ok_iff, next16_eq_ok_iff, -bind_pure_comp]

/-- The operand fetches of a mnemonic fail exactly on a list that ends before the length its opcode fixes (R68). No
mnemonic reads more than four operand bytes, so the split is on the lists of up to three and on the longer ones. -/
theorem decodeOperands_eq_error_iff {k : Opcode} {bs : List Byte} {e : DecodeError} :
    (∃ left, decodeOperands next8 next16 k bs = .error e left) ↔
      .truncated = e ∧ bs.length + 1 < instrLength k := by
  rcases bs with _ | ⟨b0, _ | ⟨b1, _ | ⟨b2, _ | ⟨b3, others⟩⟩⟩⟩ <;> cases k <;>
    simp [decodeOperands, parser_bind, parser_pure, instrLength, -bind_pure_comp]

/-! ### The decoder on a list of bytes -/

theorem decode_nil (oc : OpcodeMap) : decode oc [] = .error .truncated := rfl

theorem decode_cons_unassigned {oc : OpcodeMap} {op : Byte} (unassigned : opcodeOf oc op = none)
    (bs : List Byte) : decode oc (op :: bs) = .error (.unassignedOpcode op) := by
  simp [decode, decodeWith, parser_bind, unassigned, parser_pure]

section Assigned
variable {oc : OpcodeMap} {op : Byte} {k : Opcode} (selected : opcodeOf oc op = some k) {bs rest : List Byte}
include selected

theorem decode_cons_eq_ok_iff {i : Instr} :
    decode oc (op :: bs) = .ok (i, rest) ↔ i.opcode = k ∧ bs = operandBytes i ++ rest := by
  rw [← decodeOperands_eq_ok_iff]
  simp only [decode, decodeWith, parser_bind, next8_cons, selected]
  cases decodeOperands next8 next16 k bs <;> simp [parser_pure]

theorem decode_cons_eq_error_iff {e : DecodeError} :
    decode oc (op :: bs) = .error e ↔ .truncated = e ∧ bs.length + 1 < instrLength k := by
  rw [← decodeOperands_eq_error_iff]
  simp only [decode, decodeWith, parser_bind, next8_cons, selected]
  cases decodeOperands next8 next16 k bs <;> simp [parser_pure]

end Assigned

/-- A list decodes to an instruction exactly when it starts with a byte assigned to its mnemonic and its operand
bytes. -/
theorem decode_eq_ok_iff {oc : OpcodeMap} {bs rest : List Byte} {i : Instr} :
    decode oc bs = .ok (i, rest) ↔
      ∃ op, opcodeOf oc op = some i.opcode ∧ bs = op :: (operandBytes i ++ rest) := by
  cases bs with
  | nil => simp [decode_nil]
  | cons op bs =>
    cases selected : opcodeOf oc op with
    | none =>
      rw [decode_cons_unassigned selected]
      simp +contextual [selected, eq_comm (a := op)]
    | some k =>
      rw [decode_cons_eq_ok_iff selected]
      simp [selected, eq_comm (a := k), and_comm]

/-! ### The statements -/

/-- Settles O4: the opcode byte of an instruction selects its mnemonic, for the map is injective. -/
theorem encodedInstructionDecodesToItself : Obligations.EncodedInstructionDecodesToItself := by
  unfold Obligations.EncodedInstructionDecodesToItself
  intro oc i rest injective
  rw [encode_eq_cons, List.cons_append]
  exact decode_eq_ok_iff.2 ⟨_, opcodeOf_opcodeByte injective i.opcode, rfl⟩

/-- Settles O5: the byte that selected the mnemonic is the mnemonic's byte. -/
theorem decodedBytesAreTheEncoding : Obligations.DecodedBytesAreTheEncoding := by
  unfold Obligations.DecodedBytesAreTheEncoding
  intro oc bytes rest i decoded
  obtain ⟨op, selected, rfl⟩ := decode_eq_ok_iff.1 decoded
  rw [encode_eq_cons, opcodeByte_of_opcodeOf selected, List.cons_append]

/-- Settles O3: the two laws of the opcode map are the two directions. -/
theorem dispatchSelectsTheMatchingMnemonic : Obligations.DispatchSelectsTheMatchingMnemonic := by
  unfold Obligations.DispatchSelectsTheMatchingMnemonic
  intro oc b k injective
  refine ⟨opcodeByte_of_opcodeOf, ?_⟩
  rintro rfl
  exact opcodeOf_opcodeByte injective k

/-- Settles O6: an empty list, an unassigned first byte, and an assigned one, whose operands fail only for want of
bytes. -/
theorem decoderRejectsOnlyUnassignedAndTruncated : Obligations.DecoderRejectsOnlyUnassignedAndTruncated := by
  unfold Obligations.DecoderRejectsOnlyUnassignedAndTruncated
  intro oc bytes
  cases bytes with
  | nil => simp [decode_nil]
  | cons b bs =>
    cases selected : opcodeOf oc b with
    | none =>
      rw [decode_cons_unassigned selected]
      simp +contextual [selected, eq_comm (a := b)]
    | some k => simp +contextual [decode_cons_eq_error_iff selected, selected, eq_comm (a := b)]

/-! ### The instruction word -/

/-- A 16-bit field takes the 16 bits below what the word holds so far (R62). -/
theorem foldl_wordBytes (start : Nat) (w : Word) :
    (wordBytes w).foldl (fun word b => word * 256 + b.toNat) start = start * 65536 + w.toNat := by
  simp only [wordBytes, List.foldl_cons, List.foldl_nil, Machine.firstByte_toNat, Machine.secondByte_toNat]
  omega

/-- Settles O7: each format is a list of bytes and 16-bit fields, and the word takes them one after another. -/
theorem instructionWordHasTheFormatFields : Obligations.InstructionWordHasTheFormatFields := by
  unfold Obligations.InstructionWordHasTheFormatFields
  intro oc
  refine ⟨?_, ?_, ?_, ?_, ?_, ?_, ?_, ?_⟩ <;> intros <;>
    simp only [instrWord, encode, List.foldl_append, foldl_wordBytes, List.foldl_cons, List.foldl_nil] <;>
    omega

/-- Settles O1: nine closed runs of the decoder, each a word of one format or an unassigned byte. -/
theorem wordsOfTheFormatsDecode : Obligations.WordsOfTheFormatsDecode := by
  unfold Obligations.WordsOfTheFormatsDecode
  decide

/-- Settles O2: the assigned bytes are the seven from 0x10 to 0x16. -/
theorem defaultOpcodeBytesAreDistinct : Obligations.DefaultOpcodeBytesAreDistinct := by
  unfold Obligations.DefaultOpcodeBytesAreDistinct
  refine ⟨by decide, fun b => ?_⟩
  simp only [opcodeOf, defaultOpcodeMap, BitVec.toNat_eq, BitVec.ofNat_eq_ofNat, BitVec.toNat_ofNat]
  split_ifs <;> simp <;> omega

end Sys2Proof
end

section
/-! PROOFS. What a step leaves (40_fetch_and_step.md R84, R90; 10_state.md R23). A step that latches nothing of its
own performs the instruction at IP or runs off an unassigned byte (`step_ends`); what it writes is then read off
the instruction. -/

namespace Sys2Proof.Machine

/-! ### The ends of an instruction -/

/-- The register slot an instruction is listed to write (the table of R23). -/
def destination : Instr → Option Slot
  | .movLitReg _ b => some (slot b)
  | .movRegReg _ bt => some (slot bt)
  | .movRegMem _ _ => none
  | .movMemReg _ bt => some (slot bt)
  | .movLitR2 _ => some r2Slot
  | .addRegReg _ _ => some accSlot
  | .jmpNotEq _ _ => some ipSlot

/-- An instruction writes its destination, or no register at all. -/
theorem exec_regs {i : Instr} {s t : State} (performed : exec i s = .next t) :
    (∃ j v, destination i = some j ∧ t = s.setReg j v) ∨ t.regs = s.regs := by
  cases i with
  | movLitReg | movRegReg | movLitR2 =>
    cases performed
    exact .inl ⟨_, _, rfl, rfl⟩
  | movRegMem bf a =>
    right
    by_cases fits : s.inBounds (byteAddress a) 2
    · rw [exec_movRegMem_ok s fits] at performed; cases performed; rfl
    · rw [exec_movRegMem_fault s fits] at performed; cases performed; rfl
  | movMemReg a bt =>
    by_cases fits : s.inBounds (byteAddress a) 2
    · rw [exec_movMemReg_ok s fits] at performed; cases performed
      exact .inl ⟨_, _, rfl, rfl⟩
    · rw [exec_movMemReg_fault s fits] at performed; cases performed
      exact .inr rfl
  | addRegReg k1 k2 =>
    by_cases first : k1.toNat < 10
    · by_cases second : k2.toNat < 10
      · rw [exec_addRegReg_ok s first second] at performed; cases performed
        exact .inl ⟨_, _, rfl, rfl⟩
      · rw [exec_addRegReg_fault_second s first second] at performed; cases performed
        exact .inr rfl
    · rw [exec_addRegReg_fault_first s first] at performed; cases performed
      exact .inr rfl
  | jmpNotEq v a =>
    by_cases equal : v = s.reg accSlot
    · rw [exec_jmpNotEq_not_taken s equal] at performed; cases performed
      exact .inr rfl
    · rw [exec_jmpNotEq_taken s equal] at performed; cases performed
      exact .inl ⟨_, _, rfl, rfl⟩

/-- An instruction keeps every register but its destination. -/
theorem exec_reg_of_ne_destination {i : Instr} {s t : State} {j : Slot} (performed : exec i s = .next t)
    (other : destination i ≠ some j) : t.reg j = s.reg j := by
  rcases exec_regs performed with ⟨j', v, isDestination, rfl⟩ | kept
  · rw [reg_setReg, if_neg fun same => other (isDestination.trans (congrArg some same))]
  · exact congrArg (·.get j) kept

/-- An instruction leaves memory as it was, or stores one word that is in bounds. -/
theorem exec_mem {i : Instr} {s t : State} (performed : exec i s = .next t) :
    t.mem = s.mem ∨
    ∃ bf a, i = .movRegMem bf a ∧ s.inBounds (byteAddress a) 2 ∧
      t = s.storeWord (byteAddress a) (s.reg (slot bf)) := by
  rcases exec_cases s performed with ⟨j, v, rfl⟩ | store | rfl | ⟨info, rfl⟩
  · exact .inl rfl
  · exact .inr store
  · exact .inl rfl
  · exact .inl rfl

/-- An instruction leaves the latch as it was, or latches an OutOfBounds fault and does nothing else. -/
theorem exec_fault_eq_or_latched {i : Instr} {s t : State} (performed : exec i s = .next t) :
    t.fault = s.fault ∨ ∃ info, t = latchFault (.outOfBounds info) s := by
  rcases exec_cases s performed with ⟨j, v, rfl⟩ | ⟨bf, a, -, -, rfl⟩ | rfl | latched
  · exact .inl rfl
  · exact .inl rfl
  · exact .inl rfl
  · exact .inr latched

/-! ### The ends of a step -/

/-- The step from a state with no latched fault: it latches one and has moved only IP, or it runs off an unassigned
byte and has moved only IP, or it ends as the instruction at IP does from the state past it. -/
theorem step_ends {s t : State} (running : s.fault = none) (stepped : step s = .next t) :
    (∃ f n, t = latchFault f (s.advanced n)) ∨
    t = s.advanced 1 ∨
    ∃ k, Dispatches s k ∧ exec (s.codeInstr k) (s.advanced (instrLength k)) = .next t := by
  rcases step_cases s with ⟨f, stopped, -⟩ | ⟨-, -, answer⟩ | ⟨-, -, -, answer⟩ |
    ⟨k, pre, n, post, -, -, -, -, -, -, answer⟩ | ⟨k, -, fits, selected, -, answer⟩
  · simp [running] at stopped
  · cases stepped.symm.trans answer
    exact .inl ⟨_, 0, by rw [advanced_zero]⟩
  · cases stepped.symm.trans answer
    split
    · exact .inl ⟨_, 1, rfl⟩
    · exact .inr (.inl rfl)
  · cases stepped.symm.trans answer
    exact .inl ⟨_, _, rfl⟩
  · exact .inr (.inr ⟨k, ⟨running, fits, selected⟩, answer.symm.trans stepped⟩)

/-- A step that answers a next state began with no fault latched. -/
theorem running_of_step_next {s t : State} (stepped : step s = .next t) : s.fault = none := by
  by_contra stopped
  obtain ⟨f, latched⟩ := Option.ne_none_iff_exists'.1 stopped
  cases (step_latched s latched).symm.trans stepped

/-- A step from an assigned opcode byte that latches nothing has performed the instruction at IP. -/
theorem exec_of_step_no_fault {s t : State} {k : Opcode} (run : Dispatches s k) (stepped : step s = .next t)
    (clean : t.fault = none) : exec (s.codeInstr k) (s.advanced (instrLength k)) = .next t := by
  rcases fieldsFit_or_first s 1 (operandWidths k) with fits | ⟨pre, n, post, widths, before, out⟩
  · rw [← step_exec s run.running run.opcodeFits run.selected fits, stepped]
  · rw [step_operand_fault s run.running run.opcodeFits run.selected widths before out] at stepped
    cases stepped
    simp at clean

/-- No step changes the parameters (R20). -/
theorem step_cfg {s t : State} (stepped : step s = .next t) : t.cfg = s.cfg := by
  rcases step_ends (running_of_step_next stepped) stepped with ⟨f, n, rfl⟩ | rfl | ⟨k, -, performed⟩
  · rfl
  · rfl
  · exact (exec_cfg performed).trans (advanced_cfg ..)

/-- A step leaves memory as it was, or performs a MOV_REG_MEM that stores one word in bounds and latches nothing
(R23, R46). -/
theorem step_mem {s t : State} (stepped : step s = .next t) :
    t.mem = s.mem ∨
    Dispatches s .movRegMem ∧ s.inBounds (byteAddress (s.codeWord 2)) 2 ∧
      t = (s.advanced 4).storeWord (byteAddress (s.codeWord 2)) ((s.advanced 4).reg (slot (s.codeByte 1))) := by
  rcases step_ends (running_of_step_next stepped) stepped with ⟨f, n, rfl⟩ | rfl | ⟨k, run, performed⟩
  · exact .inl rfl
  · exact .inl rfl
  · rcases exec_mem performed with kept | ⟨bf, a, isStore, fits, stored⟩
    · exact .inl kept
    · cases k <;> cases isStore
      exact .inr ⟨run, fits, stored⟩

/-! ### The statements -/

/-- Settles O14: in each way a step can go it answers a next state, for every instruction does. -/
theorem stepWithNoLatchedFaultAnswersNext : Obligations.StepWithNoLatchedFaultAnswersNext := by
  unfold Obligations.StepWithNoLatchedFaultAnswersNext
  intro s running
  rcases step_cases s with ⟨f, stopped, -⟩ | ⟨-, -, answer⟩ | ⟨-, -, -, answer⟩ |
    ⟨k, pre, n, post, -, -, -, -, -, -, answer⟩ | ⟨k, -, -, -, -, answer⟩
  · simp [running] at stopped
  · exact ⟨_, answer⟩
  · exact ⟨_, answer⟩
  · exact ⟨_, answer⟩
  · rw [answer]
    exact exec_next _ _

/-- Settles O38: the one way a step changes memory is a MOV_REG_MEM performed. -/
theorem onlyMovRegMemChangesMemory : Obligations.OnlyMovRegMemChangesMemory := by
  unfold Obligations.OnlyMovRegMemChangesMemory
  intro s t stepped changed
  obtain kept | ⟨run, -, -⟩ := step_mem stepped
  · exact absurd kept changed
  · exact ⟨run.opcodeFits, run.selected⟩

/-- Settles O39: fetching moves only IP, so a register that changed was the destination of the instruction
performed. -/
theorem stepWritesOnlyTheTabledSlots : Obligations.StepWritesOnlyTheTabledSlots := by
  unfold Obligations.StepWritesOnlyTheTabledSlots
  intro s t j stepped notIp changed
  have fetched : ∀ n, (s.advanced n).reg j = s.reg j := fun n => (advanced_changes_only_ip s n).1 j notIp
  rcases step_ends (running_of_step_next stepped) stepped with ⟨f, n, rfl⟩ | rfl | ⟨k, run, performed⟩
  · exact absurd (fetched n) changed
  · exact absurd (fetched 1) changed
  · refine ⟨k, run.selected, ?_⟩
    rw [← fetched (instrLength k)] at changed
    have written := not_imp_comm.1 (exec_reg_of_ne_destination performed) changed
    cases k with
    | jmpNotEq => exact absurd (Option.some.inj written).symm notIp
    | _ => cases written <;> simp

/-- Settles O40: a fault of a fetch is latched in a state where only IP has moved; an instruction that latches one
does nothing else. -/
theorem faultingStepWritesNothingButIp : Obligations.FaultingStepWritesNothingButIp := by
  unfold Obligations.FaultingStepWritesNothingButIp
  intro s t f running stepped latched
  have moved : ∃ f n, t = latchFault f (s.advanced n) := by
    rcases step_ends running stepped with moved | rfl | ⟨k, -, performed⟩
    · exact moved
    · simp [running] at latched
    · rcases exec_fault_eq_or_latched performed with kept | ⟨info, rfl⟩
      · simp [latched, running] at kept
      · exact ⟨_, _, rfl⟩
  obtain ⟨g, n, rfl⟩ := moved
  exact ⟨rfl, rfl, (advanced_changes_only_ip s n).1⟩

/-- The slot that holds IP is the one of the index bytes that are 0 modulo 10 (R100). -/
theorem slot_eq_ipSlot_iff (b : Byte) : slot b = ipSlot ↔ b.toNat % 10 = 0 := by
  simp [Fin.ext_iff, slot_val]

/-- Settles O16: a step that does not fault has performed the instruction from the state past it, where slot 0
holds the fall-through address; what is in slot 0 after it is what the instruction wrote there, if it did. -/
theorem ipAfterAStepThatDoesNotFault : Obligations.IpAfterAStepThatDoesNotFault := by
  unfold Obligations.IpAfterAStepThatDoesNotFault
  intro s t k running fits selected stepped clean
  have performed := exec_of_step_no_fault ⟨running, fits, selected⟩ stepped clean
  have fallThrough : destination (s.codeInstr k) ≠ some ipSlot →
      t.ip = s.ip + BitVec.ofNat 16 (instrLength k) := fun other =>
    (exec_reg_of_ne_destination performed other).trans (by rw [advanced_reg, if_pos rfl])
  cases k with
  | movRegMem | movLitR2 | addRegReg => exact fallThrough (by simp [State.codeInstr, destination])
  | movLitReg =>
    cases performed
    simp [State.codeInstr, slot_eq_ipSlot_iff, instrLength]
  | movRegReg =>
    cases performed
    simp only [State.codeInstr, reg_setReg, advanced_reg_eq_ite, slot_eq_ipSlot_iff, instrLength]
    split_ifs <;> simp_all
  | movMemReg =>
    by_cases present : s.inBounds (byteAddress (s.codeWord 1)) 2
    · rw [State.codeInstr, exec_movMemReg_ok (s.advanced _) present] at performed
      cases performed
      simp [State.codeInstr, slot_eq_ipSlot_iff, instrLength, byteAddress]
    · rw [State.codeInstr, exec_movMemReg_fault (s.advanced _) present] at performed
      cases performed
      simp at clean
  | jmpNotEq =>
    by_cases equal : s.codeWord 1 = s.reg accSlot
    · rw [State.codeInstr, exec_jmpNotEq_not_taken _ (by rwa [advanced_reg_accSlot])] at performed
      cases performed
      simp [State.codeInstr, equal, instrLength]
    · rw [State.codeInstr, exec_jmpNotEq_taken _ (by rwa [advanced_reg_accSlot])] at performed
      cases performed
      simp [State.codeInstr, equal]

end Sys2Proof.Machine
end

section
/-! PROOFS. The invariant of the state (10_state.md R20, R33; 60_exceptions.md R161, R164): every step keeps it,
every host call keeps it, and so does every run. An induction over the calls of a run stands once
(`hostRun_induction`). -/

namespace Sys2Proof.Machine

/-! ### What can be latched -/

theorem codeAddr_lt (s : State) (k : Nat) : s.codeAddr k < 65536 := BitVec.isLt _

/-- Every operand field has one byte or two (R61). -/
theorem width_of_mem_operandWidths {k : Opcode} {n : Nat} (isWidth : n ∈ operandWidths k) : n = 1 ∨ n = 2 := by
  cases k <;> simp [operandWidths] at isWidth <;> omega

/-- The fault of a fetch that is out of bounds. -/
theorem latchable_fetchFault {s : State} {k n : Nat} (width : n = 1 ∨ n = 2) (out : ¬ s.fieldFits k n) :
    latchable s.cfg (memFault (s.codeAddr k) n .fetch) = true := by
  simpa [latchable, memFault, codeAddr_lt, width] using out

/-- The faults of an instruction past its operand fetches: the access past memory starts at an address operand, and
the index is an index byte. -/
theorem latchable_of_performanceRaises {s : State} {k : Opcode} {info : OutOfBounds}
    (raises : s.performanceRaises k info) : latchable s.cfg (.outOfBounds info) = true := by
  rcases raises with ⟨-, past, rfl⟩ | ⟨-, past, rfl⟩ | ⟨-, large, rfl⟩ | ⟨-, -, large, rfl⟩
  · simpa [latchable, past] using (s.codeWord 1).isLt
  · simpa [latchable, past] using (s.codeWord 2).isLt
  · simpa [latchable, large] using (s.codeByte 1).isLt
  · simpa [latchable, large] using (s.codeByte 2).isLt

/-- A running step latches only what R161 and R164 allow. -/
theorem step_latchable {s t : State} {f : Fault} (running : s.fault = none) (stepped : step s = .next t)
    (latched : t.fault = some f) : latchable s.cfg f = true := by
  rcases step_latches running stepped latched with ⟨past, rfl⟩ | ⟨-, unassigned, strict, rfl⟩ |
    ⟨k, -, ⟨pre, n, post, widths, -, out, rfl⟩ | ⟨-, performed, info, rfl⟩⟩
  · exact latchable_fetchFault (.inl rfl) past
  · simp [latchable, unassigned, strict]
  · exact latchable_fetchFault (width_of_mem_operandWidths (by rw [widths]; simp)) out
  · exact latchable_of_performanceRaises ((exec_codeInstr_outOfBounds_iff running performed).1 latched)

/-! ### The invariant of a step -/

/-- A word stored in bounds keeps the canonical form and the bound of memory. -/
theorem storeWord_mem_wf_within {s : State} {a : Nat} {w : Word} (canonical : s.mem.wf = true)
    (within : s.mem.within s.cfg.memSize = true) (fits : s.inBounds a 2) :
    (s.storeWord a w).mem.wf = true ∧ (s.storeWord a w).mem.within s.cfg.memSize = true := by
  rw [storeWord_mem]
  exact ⟨Memory.wf_setByte (Memory.wf_setByte canonical _ _) _ _,
    Memory.within_setByte (Memory.within_setByte within (by omega) _) (by omega) _⟩

/-- The invariant part by part: no step changes the parameters, a store that is performed is in bounds, and what is
latched is a fault R161 or R164 allows. -/
theorem step_keeps_inv {s t : State} (inv : s.inv = true) (stepped : step s = .next t) : t.inv = true := by
  obtain ⟨params, canonical, within, -⟩ := (inv_iff s).1 inv
  have memory : t.mem.wf = true ∧ t.mem.within s.cfg.memSize = true := by
    obtain kept | ⟨-, fits, rfl⟩ := step_mem stepped
    · rw [kept]
      exact ⟨canonical, within⟩
    · exact storeWord_mem_wf_within (s := s.advanced 4) canonical within fits
  rw [inv_iff, step_cfg stepped]
  exact ⟨params, memory.1, memory.2, fun f => step_latchable (running_of_step_next stepped) stepped⟩

/-- Settles O42: `step_keeps_inv`. -/
theorem invariantKeptByEveryStep : Obligations.InvariantKeptByEveryStep := by
  unfold Obligations.InvariantKeptByEveryStep
  intro s t
  exact step_keeps_inv

/-! ### The invariant along a run -/

/-- The step as the host sees it, when the engine is stopped. -/
theorem hostStep_latched {s : State} {f : Fault} (latched : s.fault = some f) : hostStep s = (s, .error f) := by
  simp [hostStep, step_latched s latched]

/-- The step as the host sees it, when it answers a next state: that state, and the fault latched in it if any. -/
theorem hostStep_next {s t : State} (stepped : step s = .next t) :
    hostStep s = (t, t.fault.elim .ok .error) := by
  rw [hostStep, stepped]
  cases latched : t.fault <;> simp [latched]

/-- A property that every call keeps holds along every run. -/
theorem hostRun_induction {P : State → Prop} (keeps : ∀ op s, P s → P (hostCall op s).1)
    (ops : List HostOp) {s : State} (start : P s) : P (hostRun ops s) := by
  induction ops generalizing s with
  | nil => exact start
  | cons op ops ih => exact ih (keeps op s start)

/-- A property that every step and every other call keep is kept by every call. -/
theorem hostCall_keeps {P : State → Prop} {s : State} (byStep : ∀ t, step s = .next t → P t)
    (byOther : ∀ op, op ≠ .step → P (hostCall op s).1) (start : P s) (op : HostOp) : P (hostCall op s).1 := by
  by_cases isStep : op = .step
  · subst isStep
    change P (hostStep s).1
    cases latched : s.fault with
    | some f => rwa [hostStep_latched latched]
    | none =>
      obtain ⟨t, stepped⟩ := stepWithNoLatchedFaultAnswersNext s latched
      rw [hostStep_next stepped]
      exact byStep t stepped
  · exact byOther op isStep

/-- A call other than `step` leaves the parameters and the latch, and keeps memory as the invariant asks. -/
theorem hostCall_keeps_inv (op : HostOp) (s : State) (inv : s.inv = true) : (hostCall op s).1.inv = true := by
  refine hostCall_keeps (P := fun u => u.inv = true) (fun t => step_keeps_inv inv) (fun op other => ?_) inv op
  obtain ⟨params, canonical, within, latch⟩ := (inv_iff s).1 inv
  obtain ⟨cfg, fault, memory, -⟩ := hostCall_cases s other
  rw [inv_iff, cfg, fault]
  exact ⟨params, (memory canonical within).1, (memory canonical within).2, latch⟩

/-- Settles O44, by the induction over the calls: each keeps the invariant. -/
theorem invariantHoldsAlongEveryHostRun : Obligations.InvariantHoldsAlongEveryHostRun := by
  unfold Obligations.InvariantHoldsAlongEveryHostRun
  intro ops s
  exact hostRun_induction (P := fun u => u.inv = true) hostCall_keeps_inv ops

/-- The state `u` has the parameters of `s`, and its latched fault where it has one (R20, R33, R168). -/
def KeepsParametersAndLatch (s u : State) : Prop :=
  u.cfg = s.cfg ∧ ∀ f, s.fault = some f → u.fault = some f

theorem KeepsParametersAndLatch.trans {s u v : State} (first : KeepsParametersAndLatch s u)
    (second : KeepsParametersAndLatch u v) : KeepsParametersAndLatch s v :=
  ⟨second.1.trans first.1, fun f latched => second.2 f (first.2 f latched)⟩

/-- A step keeps the parameters, and one that answers a next state began with no fault to keep; the other calls keep
both. -/
theorem hostCall_keepsParametersAndLatch (op : HostOp) (s : State) :
    KeepsParametersAndLatch s (hostCall op s).1 := by
  refine hostCall_keeps (P := KeepsParametersAndLatch s)
    (fun t stepped => ⟨step_cfg stepped, fun f latched => ?_⟩) (fun op other => ?_) ⟨rfl, fun _ => id⟩ op
  · cases latched.symm.trans (running_of_step_next stepped)
  · obtain ⟨cfg, fault, -, -⟩ := hostCall_cases s other
    exact ⟨cfg, fun f => fault.trans⟩

/-- Settles O45, by the induction over the calls: what each of them keeps, the run keeps. -/
theorem parametersAndLatchedFaultStay : Obligations.ParametersAndLatchedFaultStay := by
  unfold Obligations.ParametersAndLatchedFaultStay
  intro ops s
  exact hostRun_induction (P := KeepsParametersAndLatch s)
    (fun op u kept => kept.trans (hostCall_keepsParametersAndLatch op u)) ops ⟨rfl, fun _ => id⟩

/-- Settles O43: nothing is written and nothing is latched, so only the parameters count. -/
theorem invariantHoldsAfterConstruction : Obligations.InvariantHoldsAfterConstruction := by
  unfold Obligations.InvariantHoldsAfterConstruction
  have constructed : ∀ c : Config, c.wf = true → (State.constructed c).inv = true := fun c legal =>
    (inv_iff _).2 ⟨legal, rfl, rfl, by simp⟩
  exact ⟨constructed defaultConfig (by decide), constructed⟩

/-! ### Replies -/

/-- Settles O13: the step and the host's view of it, from a stopped engine. -/
theorem latchedFaultStopsTheEngine : Obligations.LatchedFaultStopsTheEngine := by
  unfold Obligations.LatchedFaultStopsTheEngine
  intro s f latched
  exact ⟨step_latched s latched, hostStep_latched latched⟩

/-- Settles O15: a step that runs answers a next state, and the reply is read off its latch. -/
theorem hostStepRepliesWithTheRaisedFault : Obligations.HostStepRepliesWithTheRaisedFault := by
  unfold Obligations.HostStepRepliesWithTheRaisedFault
  intro s running
  obtain ⟨t, stepped⟩ := stepWithNoLatchedFaultAnswersNext s running
  refine ⟨t, stepped, fun clean => ?_, fun f latched => ?_⟩
  · rw [hostStep_next stepped, clean]; rfl
  · rw [hostStep_next stepped, latched]; rfl

/-- Settles O57: the last clause of what a call other than `step` can do. -/
theorem hostErrorChangesNothing : Obligations.HostErrorChangesNothing := by
  unfold Obligations.HostErrorChangesNothing
  intro op s t f other called
  obtain ⟨-, -, -, errorKeeps⟩ := hostCall_cases s other
  rw [called] at errorKeeps
  exact errorKeeps f rfl

end Sys2Proof.Machine
end

section
/-! PROOFS. Runs of steps (44_host_interface.md R151; 43_control_transfer.md R130): a good run passes no fault, and a
jump to itself never ends. -/

namespace Sys2Proof.Machine

/-- A good run of no steps. -/
theorem goodRun_zero {s t : State} : goodRun 0 s t ↔ s = t ∧ t.fault = none := by
  refine and_congr_left' ⟨?_, ?_⟩
  · rintro ⟨⟩; rfl
  · rintro rfl; rfl

/-- A good run of one more step: the step answers a next state, and the rest is a good run from there. -/
theorem goodRun_succ {k : Nat} {s t : State} :
    goodRun (k + 1) s t ↔ ∃ u, step s = .next u ∧ goodRun k u t := by
  constructor
  · rintro ⟨ran, clean⟩
    cases latched : s.fault with
    | some f =>
      have stopped : core.step s = .fault f := step_latched s latched
      simp [Host.Core.run, stopped] at ran
    | none =>
      obtain ⟨u, stepped⟩ := stepWithNoLatchedFaultAnswersNext s latched
      exact ⟨u, stepped, (run_succ_next k stepped).symm.trans ran, clean⟩
  · rintro ⟨u, stepped, ran, clean⟩
    exact ⟨(run_succ_next k stepped).trans ran, clean⟩

/-- Settles O46, by induction on the number of steps: a step that answers a next state began with no fault latched,
and the shorter runs are that step and the shorter runs from there. -/
theorem goodRunsNeverPassAFault : Obligations.GoodRunsNeverPassAFault := by
  unfold Obligations.GoodRunsNeverPassAFault
  intro k
  induction k with
  | zero =>
    intro s t good
    obtain ⟨rfl, clean⟩ := goodRun_zero.1 good
    refine ⟨clean, fun j le => ⟨s, ?_⟩⟩
    obtain rfl := Nat.le_zero.1 le
    exact good
  | succ k ih =>
    intro s t good
    obtain ⟨u, stepped, rest⟩ := goodRun_succ.1 good
    have running := running_of_step_next stepped
    refine ⟨running, fun j le => ?_⟩
    cases j with
    | zero => exact ⟨s, goodRun_zero.2 ⟨rfl, running⟩⟩
    | succ j =>
      obtain ⟨v, shorter⟩ := (ih u t rest).2 j (Nat.le_of_succ_le_succ le)
      exact ⟨v, goodRun_succ.2 ⟨u, stepped, shorter⟩⟩

/-- A state that its step gives back is given back by any number of steps. -/
theorem run_of_step_self {s : State} (stepped : step s = .next s) (k : Nat) : core.run k s = .next s := by
  induction k with
  | zero => rfl
  | succ k ih => rw [run_succ_next k stepped, ih]

/-- Settles O48: the jump is taken, and the target it writes to IP is what IP holds. -/
theorem jumpToItselfRunsForever : Obligations.JumpToItselfRunsForever := by
  unfold Obligations.JumpToItselfRunsForever
  intro s legal running selected fits differs toItself
  simp only [State.fieldsFit, Bool.and_eq_true, decide_eq_true_eq, Nat.zero_add, Nat.reduceAdd, and_true] at fits
  obtain ⟨opcodeFits, valueFits, addrFits⟩ := fits
  obtain ⟨-, -, taken, -⟩ := jmpNotEqStep s legal running opcodeFits (opcodeByte_of_opcodeOf selected).symm
  refine run_of_step_self ?_
  rw [taken valueFits addrFits differs, toItself]
  exact congrArg _ (setReg_reg_self s ipSlot)

end Sys2Proof.Machine
end

section
/-! PROOFS. Each instruction past its operand fetches: that it completes, with its result, and its frame
(41_data_movement.md R100 to R105; 42_arithmetic.md R120, R121; 43_control_transfer.md R130). -/

namespace Sys2Proof.Machine

/-! ### The frame of one write -/

/-- What a write of one slot changes: that slot and nothing else. -/
theorem setReg_frame (s : State) (i : Slot) (v : Word) :
    (∀ j, j ≠ i → (s.setReg i v).reg j = s.reg j) ∧ (∀ a, (s.setReg i v).byteAt a = s.byteAt a) ∧
      (s.setReg i v).fault = s.fault ∧ (s.setReg i v).cfg = s.cfg := by
  refine ⟨fun j other => ?_, setReg_byteAt s i v, setReg_fault .., setReg_cfg ..⟩
  rw [reg_setReg, if_neg other.symm]

theorem reg_setReg_same (s : State) (i : Slot) (v : Word) : (s.setReg i v).reg i = v := by
  rw [reg_setReg, if_pos rfl]

/-- A register after a write of the slot that an index byte names (R100). -/
theorem reg_setReg_slot (s : State) (b : Byte) (v : Word) (j : Slot) :
    (s.setReg (slot b) v).reg j = if j.val = b.toNat % 10 then v else s.reg j := by
  simp only [reg_setReg, Fin.ext_iff, slot_val, eq_comm]

/-- The bytes a 16-bit store does not write. -/
theorem storeWord_byteAt_ne {s : State} (canonical : s.mem.wf = true) {a x : Nat} (w : Word) (first : x ≠ a)
    (second : x ≠ a + 1) : (s.storeWord a w).byteAt x = s.byteAt x := by
  rw [storeWord_byteAt canonical, if_neg second, if_neg first]

/-- The byte at the address of a 16-bit store is the high one (R44, R47). -/
theorem storeWord_byteAt_self {s : State} (canonical : s.mem.wf = true) (a : Nat) (w : Word) :
    (s.storeWord a w).byteAt a = firstByte w := by
  rw [storeWord_byteAt canonical, if_neg (by omega), if_pos rfl]

/-- The byte after the address of a 16-bit store is the low one (R44, R47). -/
theorem storeWord_byteAt_succ {s : State} (canonical : s.mem.wf = true) (a : Nat) (w : Word) :
    (s.storeWord a w).byteAt (a + 1) = secondByte w := by
  rw [storeWord_byteAt canonical, if_pos rfl]

/-! ### Completion -/

/-- Settles O26: the instruction is one write of the slot its index byte names. -/
theorem movLitRegCompletes : Obligations.MovLitRegCompletes := by
  unfold Obligations.MovLitRegCompletes
  intro lit b s
  exact ⟨_, exec_movLitReg s lit b, reg_setReg_slot s b lit, (setReg_frame s _ _).2⟩

/-- Settles O27: the slot of the source is read before the destination is written. -/
theorem movRegRegCompletes : Obligations.MovRegRegCompletes := by
  unfold Obligations.MovRegRegCompletes
  intro bf bt s
  refine ⟨_, exec_movRegReg s bf bt, fun i j isSource => ?_, (setReg_frame s _ _).2⟩
  have source : slot bf = i := Fin.ext isSource.symm
  rw [source, reg_setReg_slot]

/-- Settles O28: the instruction is one store of a word in bounds. -/
theorem movRegMemCompletes : Obligations.MovRegMemCompletes := by
  unfold Obligations.MovRegMemCompletes
  intro bf a s canonical fits
  exact ⟨_, exec_movRegMem_ok s fits, storeWord_byteAt_self canonical _ _, storeWord_byteAt_succ canonical _ _,
    fun x => storeWord_byteAt_ne canonical _, storeWord_reg s _ _, rfl, rfl⟩

/-- Settles O29: the word loaded is its two bytes joined. -/
theorem movMemRegCompletes : Obligations.MovMemRegCompletes := by
  unfold Obligations.MovMemRegCompletes
  intro a bt s fits
  refine ⟨_, exec_movMemReg_ok s fits, ?_, setReg_frame s _ _⟩
  rw [reg_setReg_same, State.wordAt, joinWord_toNat]

/-- Settles O30: the instruction is one write of slot 3. -/
theorem movLitR2Completes : Obligations.MovLitR2Completes := by
  unfold Obligations.MovLitR2Completes
  intro lit s
  exact ⟨_, exec_movLitR2 s lit, reg_setReg_same s _ _, setReg_frame s _ _⟩

/-- Settles O31: the addition of 16-bit words wraps, and raises nothing. -/
theorem addRegRegSumIsModulo65536 : Obligations.AddRegRegSumIsModulo65536 := by
  unfold Obligations.AddRegRegSumIsModulo65536
  intro k1 k2 first second s
  refine ⟨_, exec_addRegReg_ok s first second, ?_, setReg_frame s _ _⟩
  rw [reg_setReg_same, BitVec.toNat_add]

/-- Settles O32: the two ends of the jump. -/
theorem jmpNotEqCompletes : Obligations.JmpNotEqCompletes := by
  unfold Obligations.JmpNotEqCompletes
  intro v a s
  by_cases equal : v = s.reg accSlot
  · refine ⟨s, exec_jmpNotEq_not_taken s equal, ?_, fun _ _ => rfl, fun _ => rfl, rfl, rfl⟩
    rw [if_pos (congrArg _ equal)]
  · refine ⟨_, exec_jmpNotEq_taken s equal, ?_, setReg_frame s _ _⟩
    rw [if_neg fun same => equal (BitVec.eq_of_toNat_eq same)]
    exact reg_setReg_same s _ _

/-! ### Faults -/

/-- Settles O33: the failing end of the load and of the store, which no register takes part in. -/
theorem loadOrStorePastMemoryLatchesOutOfBounds : Obligations.LoadOrStorePastMemoryLatchesOutOfBounds := by
  unfold Obligations.LoadOrStorePastMemoryLatchesOutOfBounds
  intro a b s past
  exact ⟨exec_movMemReg_fault s past, exec_movRegMem_fault s past⟩

/-- Settles O34: the second index is checked only when the first names a slot. -/
theorem addIndexOfTenOrMoreLatchesOutOfBounds : Obligations.AddIndexOfTenOrMoreLatchesOutOfBounds := by
  unfold Obligations.AddIndexOfTenOrMoreLatchesOutOfBounds
  intro k1 k2 s
  exact ⟨fun large => exec_addRegReg_fault_first s large.not_gt,
    fun small large => exec_addRegReg_fault_second s small large.not_gt⟩

/-- Settles O24: two indices of 1 byte, read as they are in the state past both, where slot 0 holds the fall-through
address; there the addition faults at its first index of 10 or more, or writes the sum. -/
theorem addRegRegStep : Obligations.AddRegRegStep := by
  unfold Obligations.AddRegRegStep
  intro s legal running opcodeFits isAdd
  have run : Dispatches s .addRegReg := dispatches_of_codeByte legal running opcodeFits isAdd
  have faults := addIndexOfTenOrMoreLatchesOutOfBounds (s.codeByte 1) (s.codeByte 2) (s.advanced 3)
  refine ⟨run.step_first_field_fault rfl, run.step_second_field_fault rfl, fun fits1 fits2 => ?first,
    fun fits1 fits2 => ?second, fun fits1 fits2 small1 small2 => ?sum⟩
  all_goals rw [run.step_two_fields rfl fits1 fits2]
  case first => exact faults.1
  case second => exact faults.2
  case sum => exact exec_addRegReg_ok (s.advanced 3) small1 small2

/-! ### Frames -/

/-- Settles O35: the four ends of an instruction, of which the store is MOV_REG_MEM's alone; a register that changed
was its destination. -/
theorem instructionsThatStoreNothingFrame : Obligations.InstructionsThatStoreNothingFrame := by
  unfold Obligations.InstructionsThatStoreNothingFrame
  intro i s t performed notStore
  refine ⟨fun a => ?memory, exec_cfg performed, exec_fault_eq_or_latched performed, fun j changed => ?register⟩
  case memory =>
    rcases exec_mem performed with kept | ⟨bf, a, rfl, -, -⟩
    · rw [State.byteAt, kept, State.byteAt]
    · exact absurd rfl notStore
  case register =>
    have written := not_imp_comm.1 (exec_reg_of_ne_destination performed) changed
    cases i <;> cases written <;> rfl

/-- Settles O36: MOV_REG_MEM has no destination register, and what it stores is at its address operand. -/
theorem movRegMemFrame : Obligations.MovRegMemFrame := by
  unfold Obligations.MovRegMemFrame
  intro bf a s t canonical performed
  refine ⟨fun x first second => ?memory, fun j => exec_reg_of_ne_destination performed nofun,
    exec_cfg performed, exec_fault_eq_or_latched performed⟩
  rcases exec_mem performed with kept | ⟨bf, a, ⟨⟩, -, rfl⟩
  · rw [State.byteAt, kept, State.byteAt]
  · exact storeWord_byteAt_ne canonical _ first second

/-! ### Index bytes -/

/-- Two index bytes 10 apart name one slot (R100). -/
theorem slot_eq_of_add_ten {b c : Byte} (apart : c.toNat = b.toNat + 10) : slot c = slot b := by
  rw [Fin.ext_iff, slot_val, slot_val, apart, Nat.add_mod_right]

/-- Settles O37: a MOV opcode uses an index byte only through its slot, and the addition checks it. -/
theorem movIndexWrapsModuloTen : Obligations.MovIndexWrapsModuloTen := by
  unfold Obligations.MovIndexWrapsModuloTen
  refine ⟨slot_val, fun b c apart w r s => ?sameSlot, fun c r s t large performed => ?checked⟩
  case sameSlot =>
    have same := slot_eq_of_add_ten apart
    simp only [exec, execMovLitReg, execMovRegReg, execMovRegMem, execMovMemReg, same, and_self]
  case checked =>
    cases performed.symm.trans ((addIndexOfTenOrMoreLatchesOutOfBounds c r s).1 large)
    rfl

/-! ### A store seen by the next fetch -/

/-- Settles O47: the state after the store holds both bytes at the address, and a fetch from there finds them in
bounds. -/
theorem storedBytesAreFetchedNext : Obligations.StoredBytesAreFetchedNext := by
  unfold Obligations.StoredBytesAreFetchedNext
  intro bf a s t canonical fits performed
  cases performed.symm.trans (exec_movRegMem_ok s fits)
  have ip : (((s.storeWord (byteAddress a) (s.reg (slot bf))).setIp a).ip).toNat = byteAddress a :=
    congrArg _ (reg_setReg_same _ ipSlot a)
  have fits1 : s.inBounds (byteAddress a) 1 := Nat.le_of_succ_le fits
  refine ⟨⟨_, (fetch8_eq_ok_iff ..).2 ⟨?_, ?_, rfl⟩⟩, _, (fetch16_eq_ok_iff ..).2 ⟨?_, ?_, rfl⟩⟩
  · rwa [ip]
  · rw [ip]; exact storeWord_byteAt_self canonical _ _
  · rwa [ip]
  · rw [ip]; exact storeWord_wordAt canonical _ _

end Sys2Proof.Machine
end

section
/-! PROOFS. Fetching, and one step read off the bytes at IP (40_fetch_and_step.md R80, R81, R84; 30_encoding.md R67;
60_exceptions.md R161). -/

namespace Sys2Proof.Machine

/-- Settles O9: a fetch whose bytes do not exist is the failing branch of each fetch. -/
theorem faultingFetchLeavesIp : Obligations.FaultingFetchLeavesIp := by
  unfold Obligations.FaultingFetchLeavesIp
  intro s
  exact ⟨fun out => by rw [fetch8_eq, if_neg out]; rfl, fun out => by rw [fetch16_eq, if_neg out]; rfl⟩

/-- Settles O10: what the decoder reads is the instruction whose fields lie at IP, which is the one the step
performs. -/
theorem stepRunsTheDecodedInstruction : Obligations.StepRunsTheDecodedInstruction := by
  unfold Obligations.StepRunsTheDecodedInstruction
  intro s i rest legal running decoded _ fits
  obtain ⟨k, selected, rfl⟩ := decode_codeBytes s legal decoded fits
  rw [codeInstr_opcode, State.fieldsFit, Bool.and_eq_true, decide_eq_true_eq] at fits
  rw [step_exec s running fits.1 selected fits.2, codeInstr_opcode]

/-- Settles O11: at or past the end of memory there is no opcode byte to fetch. -/
theorem opcodeFetchPastMemoryFaults : Obligations.OpcodeFetchPastMemoryFaults := by
  unfold Obligations.OpcodeFetchPastMemoryFaults
  intro s running past
  rw [step_opcode_fault s running (by rwa [opcodeFits_iff, Nat.not_lt]), codeAddr_zero]
  rfl

/-- In a full memory the only access of one or two bytes at a 16-bit address that is out of bounds is the one of two
bytes at 0xFFFF (R161). -/
theorem top_of_past_full_memory {size a n : Nat} (full : size = 65536) (isAddress : a < 65536)
    (width : n = 1 ∨ n = 2) (past : size < a + n) : a = 0xFFFF ∧ n = 2 := by
  omega

/-- Settles O18: of the faults R161 lists, those of memory start at a 16-bit address and are at most two bytes wide,
and those of the register space record an index byte. -/
theorem fullMemoryFaultsOnlyAtTheTopOrOnAnIndex : Obligations.FullMemoryFaultsOnlyAtTheTopOrOnAnIndex := by
  unfold Obligations.FullMemoryFaultsOnlyAtTheTopOrOnAnIndex
  intro s t info full running stepped latched
  rcases (outOfBoundsRaisedExactlyInTheListedCases s t info running stepped).1 latched with
    ⟨past, -⟩ | ⟨-, k, -, ⟨pre, n, post, widths, -, out, rfl⟩ |
      ⟨-, ⟨-, past, rfl⟩ | ⟨-, past, rfl⟩ | ⟨-, large, rfl⟩ | ⟨-, -, large, rfl⟩⟩⟩
  · have := s.ip.isLt
    omega
  · obtain ⟨addr, rfl⟩ := top_of_past_full_memory full (codeAddr_lt s _)
      (width_of_mem_operandWidths (by rw [widths]; simp)) (Nat.lt_of_not_le out)
    rw [addr]
    exact .inl ⟨_, rfl⟩
  · rw [(top_of_past_full_memory full (s.codeWord 1).isLt (.inr rfl) past).1]
    exact .inl ⟨_, rfl⟩
  · rw [(top_of_past_full_memory full (s.codeWord 2).isLt (.inr rfl) past).1]
    exact .inl ⟨_, rfl⟩
  · exact .inr ⟨_, large, rfl⟩
  · exact .inr ⟨_, large, rfl⟩

end Sys2Proof.Machine
end

section
/-! PROOFS. Memory and registers as buffers, construction, and the host port (20_memory.md R47; 10_state.md R22, R34;
44_host_interface.md R141 to R148). -/

namespace Sys2Proof.Machine

/-- A 16-bit write that answers was in bounds, and stored the word. -/
theorem memWrite16_eq_ok_iff {s t : State} {a : Nat} {v : Word} :
    memWrite16 a v s = .ok () t ↔ s.inBounds a 2 ∧ s.storeWord a v = t := by
  by_cases fits : s.inBounds a 2
  · simp [memWrite16_ok v fits, fits]
  · simp [memWrite16_error v fits, fits]

/-- Settles O50: the two bytes of a stored word are its quotient and its remainder by 256. -/
theorem wordWriteIsBigEndian : Obligations.WordWriteIsBigEndian := by
  unfold Obligations.WordWriteIsBigEndian
  intro s t a v k canonical written
  obtain ⟨fits, rfl⟩ := memWrite16_eq_ok_iff.1 written
  have fitsAfter : (s.storeWord a v).inBounds a 2 := fits
  refine ⟨⟨_, memRead8_ok k (Nat.le_of_succ_le fitsAfter), ?high⟩, ⟨_, memRead8_ok k fitsAfter, ?low⟩, ?word,
    fun x => storeWord_byteAt_ne canonical v⟩
  case high => rw [storeWord_byteAt_self canonical, firstByte_toNat]
  case low => rw [storeWord_byteAt_succ canonical, secondByte_toNat]
  case word => rw [memRead16_ok k fitsAfter, storeWord_wordAt canonical]

/-- In a list of words written as bytes, word i lies at offsets 2i and 2i+1. -/
theorem flatMap_wordBytes_getElem? (ws : List Word) (i : Nat) :
    (ws.flatMap wordBytes)[2 * i]? = ws[i]?.map firstByte ∧
      (ws.flatMap wordBytes)[2 * i + 1]? = ws[i]?.map secondByte := by
  induction ws generalizing i with
  | nil => simp
  | cons w ws ih =>
    cases i with
    | zero => simp [wordBytes]
    | succ i => simpa [wordBytes, Nat.mul_add] using ih i

/-- Settles O51: the buffer is the ten registers as words written as bytes, one after another. -/
theorem registerBufferHoldsSlotsAtEvenOffsets : Obligations.RegisterBufferHoldsSlotsAtEvenOffsets := by
  unfold Obligations.RegisterBufferHoldsSlotsAtEvenOffsets
  intro s i
  have held : s.regs.toList[i.val]? = some (s.reg i) := by
    simp [State.reg, Vector.get_eq_getElem]
  have placed := flatMap_wordBytes_getElem? s.regs.toList i.val
  rw [held] at placed
  refine ⟨?_, placed⟩
  simp [State.registerBuffer, wordBytes]

/-! ### Construction -/

/-- Every register and every byte of a machine just constructed is zero, and no fault is latched (R34). -/
theorem constructed_zero (c : Config) :
    (∀ i, (State.constructed c).reg i = 0) ∧ (∀ a, (State.constructed c).byteAt a = 0) ∧
      (State.constructed c).fault = none :=
  ⟨constructed_reg c, fun _ => rfl, rfl⟩

/-- Settles O52: reset is construction with the default parameters. -/
theorem resetStateIsAllZero : Obligations.ResetStateIsAllZero := by
  unfold Obligations.ResetStateIsAllZero
  obtain ⟨registers, bytes, clean⟩ := constructed_zero defaultConfig
  exact ⟨registers, bytes, clean, rfl, rfl⟩

/-- The default parameters with another memory size are legal exactly for the sizes 1 to 65536 (R8, R141). -/
theorem defaultConfig_memSize_wf_iff (n : Nat) :
    ({ defaultConfig with memSize := n } : Config).wf = true ↔ 1 ≤ n ∧ n ≤ 65536 := by
  have injective : defaultConfig.opcode.injective = true := by decide
  simp [Config.wf, Config.memSizeOk, injective]

/-- Settles O53: a machine is constructed exactly when the parameters are legal. -/
theorem newGivesAZeroedMachineOrNone : Obligations.NewGivesAZeroedMachineOrNone := by
  unfold Obligations.NewGivesAZeroedMachineOrNone
  intro n
  refine ⟨fun least most => ?_, fun outside => ?_⟩
  · exact ⟨_, if_pos ((defaultConfig_memSize_wf_iff n).2 ⟨least, most⟩), rfl, constructed_zero _⟩
  · refine if_neg fun legal => ?_
    have := (defaultConfig_memSize_wf_iff n).1 legal
    omega

/-! ### The host port -/

/-- The high byte of an integer reduced to 16 bits is the byte of its quotient by 256. -/
theorem firstByte_ofInt (v : Int) : firstByte (BitVec.ofInt 16 v) = BitVec.ofInt 8 (v / 256) := by
  apply BitVec.eq_of_toNat_eq
  rw [firstByte_toNat, BitVec.toNat_ofInt, BitVec.toNat_ofInt]
  omega

/-- The low byte of an integer reduced to 16 bits is its byte. -/
theorem secondByte_ofInt (v : Int) : secondByte (BitVec.ofInt 16 v) = BitVec.ofInt 8 v := by
  apply BitVec.eq_of_toNat_eq
  rw [secondByte_toNat, BitVec.toNat_ofInt, BitVec.toNat_ofInt]
  omega

/-- A 16-bit store is the store of its two bytes, the high one first (R44, R45). -/
theorem storeWord_eq_storeByte (s : State) (a : Nat) (w : Word) :
    s.storeWord a w = (s.storeByte a (firstByte w)).storeByte (a + 1) (secondByte w) := rfl

/-- Settles O55: both ways store the same two bytes. -/
theorem hostWordWriteRoundTrips : Obligations.HostWordWriteRoundTrips := by
  unfold Obligations.HostWordWriteRoundTrips
  intro s a v canonical fits
  refine ⟨_, memWrite16_ok _ fits, ⟨_, memRead16_ok .read fits, ?readBack⟩, ?twoBytes⟩
  case readBack => rw [storeWord_wordAt canonical, ofInt16_toNat]
  case twoBytes =>
    rw [storeWord_eq_storeByte, firstByte_ofInt, secondByte_ofInt, act_bind, writeU8,
      memWrite8_ok _ (Nat.le_of_succ_le fits)]
    exact memWrite8_ok _ fits

/-- Settles O56: one check, then the bytes one after another. -/
theorem loadWritesAllOrNothing : Obligations.LoadWritesAllOrNothing := by
  unfold Obligations.LoadWritesAllOrNothing
  intro s bs a canonical
  refine ⟨fun past => if_pos past, fun fits => ?_⟩
  exact ⟨_, if_neg (Nat.not_lt.2 fits), fun x => Memory.byteAt_setBytes canonical a x bs, fun _ => rfl, rfl, rfl⟩

/-- The reply to a call that answers a value. -/
theorem replyOf_ok {α : Type} {mk : α → HostReply} {m : Act α} {s t : State} {a : α} (answered : m s = .ok a t) :
    replyOf mk m s = (t, mk a) := by
  rw [replyOf, answered]

/-- The reply to a call that raises. -/
theorem replyOf_error {α : Type} {mk : α → HostReply} {m : Act α} {s t : State} {f : Fault}
    (raised : m s = .error f t) : replyOf mk m s = (t, .error f) := by
  rw [replyOf, raised]

/-- Settles O58: each call answers what its read does, which leaves the state as it was. -/
theorem hostReadsChangeNothing : Obligations.HostReadsChangeNothing := by
  unfold Obligations.HostReadsChangeNothing
  intro s a
  refine ⟨fun i name isName => ?register, rfl, fun fits => ?byte, fun fits => ?word, fun fits => ?view,
    fun past => ?pastView⟩
  case register => exact replyOf_ok (getRegister_of_slot (slotOfName_of_name isName) s)
  case byte => exact replyOf_ok (memRead8_ok .read fits)
  case word => exact replyOf_ok (memRead16_ok .read fits)
  case view =>
    refine ⟨_, replyOf_ok (if_neg (Nat.not_lt.2 fits)), by simp, fun k small => ?_⟩
    simp [small]
  case pastView => exact replyOf_error (if_pos past)

end Sys2Proof.Machine
end
